-- ==== Sys2Proof/Word.lean ====
section
/-! DEFINITION. The widths of the machine's values (00_scope.md R5, R6, R7). -/

namespace Sys2Proof

/-- A memory cell, an instruction word or a register: `WORD_W` = `IR_W` = 16 bits, unsigned (R5, R7). -/
abbrev Word := BitVec 16

/-- An opcode or an argument: `OPC_W` = `ARG_W` = 8 bits (R5). -/
abbrev Byte := BitVec 8

/-- A register-index field of an argument: `RIDX_W` = 4 bits (R5). -/
abbrev Nibble := BitVec 4

end Sys2Proof
end

