-- ==== Sys2Proof/Syntax.lean ====
section
/-! DEFINITION. The register names, the mnemonics and the instructions (10_state.md R16, 30_encoding.md R52, R56). -/

namespace Sys2Proof

/-- The closed set of register names, in the order of 10_state.md R16. -/
inductive Reg where
  | a | b | c | d | ca | ir | z | lr
  deriving DecidableEq, Repr

/-- The names of the seven implemented opcodes, which the diagnostic event carries (30_encoding.md R56). -/
inductive Mnemonic where
  | movAImm | movBImm | movCImm | movDImm | movRegReg | subAImm | subRegReg
  deriving DecidableEq, Repr

/-- One constructor per row of spec/opcode_table.json. A register operand is the 4-bit field itself, since a nibble that
names no register is legal to decode and raises an error when executed (30_encoding.md R59, R60). -/
inductive Instr where
  /-- MOV_A_IMM, format I (41_move.md R79). -/
  | movAImm (imm : Byte)
  /-- MOV_B_IMM, format I (41_move.md R80). -/
  | movBImm (imm : Byte)
  /-- MOV_C_IMM, format I (41_move.md R81). -/
  | movCImm (imm : Byte)
  /-- MOV_D_IMM, format I (41_move.md R82). -/
  | movDImm (imm : Byte)
  /-- MOV_REG_REG, format RR: destination nibble, source nibble (41_move.md R83). -/
  | movRegReg (d s : Nibble)
  /-- SUB_A_IMM, format I (42_subtract.md R86). -/
  | subAImm (imm : Byte)
  /-- SUB_REG_REG, format RR: destination nibble, source nibble (42_subtract.md R87). -/
  | subRegReg (d s : Nibble)
  /-- The unimplemented catch-all, format N: an opcode outside the catalog, with the argument it ignores
  (30_encoding.md R55, R58). The argument is kept so that no bit of the word is lost: notes/assumptions/8.md. -/
  | unimplemented (opcode argument : Byte)
  deriving DecidableEq, Repr

end Sys2Proof
end

