-- ==== Sys2Proof/WellFormed.lean ====
section
/-! DEFINITION. Which terms of `Instr` stand for a word (30_encoding.md R56, R59). -/

namespace Sys2Proof

/-- The opcodes outside the catalog, written from the last row of 30_encoding.md R56: 0x00, 0x01, 0x07-0x19, 0x1C-0xFF. -/
def isUnimplementedOpcode (op : Byte) : Bool :=
  op.toNat ≤ 0x01 || (0x07 ≤ op.toNat && op.toNat ≤ 0x19) || 0x1C ≤ op.toNat

/-- An instruction is well formed when some word decodes to it. The implemented opcodes reserve no argument bits (R59),
so the one check is that an unimplemented instruction's opcode is outside the catalog (R56). DESIGN CHOICE, safe:
notes/assumptions/8.md. -/
def Instr.wf : Instr → Bool
  | .movAImm _ => true
  | .movBImm _ => true
  | .movCImm _ => true
  | .movDImm _ => true
  | .movRegReg _ _ => true
  | .subAImm _ => true
  | .subRegReg _ _ => true
  | .unimplemented opcode _ => isUnimplementedOpcode opcode

end Sys2Proof
end

