-- ==== Sys2Proof/Decode.lean ====
section
/-! DEFINITION. The instruction decoder and the encoder (30_encoding.md). -/

namespace Sys2Proof

/-- `opcode = w[15:8]` (30_encoding.md R51). -/
def opcodeOf (w : Word) : Byte := w.extractLsb' 8 8

/-- `argument = w[7:0]` (30_encoding.md R51). -/
def argumentOf (w : Word) : Byte := w.extractLsb' 0 8

/-- Format RR: the destination index `argument[7:4]` (30_encoding.md R54). -/
def destOf (arg : Byte) : Nibble := arg.extractLsb' 4 4

/-- Format RR: the source index `argument[3:0]` (30_encoding.md R54). -/
def srcOf (arg : Byte) : Nibble := arg.extractLsb' 0 4

/-- The catalog's opcode of each mnemonic (30_encoding.md R56). -/
def Mnemonic.opcode : Mnemonic → Byte
  | .movAImm => 0b00000010#8
  | .movBImm => 0b00000011#8
  | .movCImm => 0b00000100#8
  | .movDImm => 0b00000101#8
  | .movRegReg => 0b00000110#8
  | .subAImm => 0b00011010#8
  | .subRegReg => 0b00011011#8

/-- The catalog: the seven implemented opcodes (30_encoding.md R56). -/
def catalog : List Mnemonic :=
  [.movAImm, .movBImm, .movCImm, .movDImm, .movRegReg, .subAImm, .subRegReg]

/-- The fixed dispatch table: what an opcode selects, none outside the catalog (40_cycle.md R69). -/
def lookupOpcode (op : Byte) : Option Mnemonic :=
  catalog.find? (fun m => m.opcode == op)

/-- Decode: total on the 65536 words (30_encoding.md R51, R52). -/
def decode (w : Word) : Instr :=
  let arg := argumentOf w
  match lookupOpcode (opcodeOf w) with
  | some .movAImm => .movAImm arg
  | some .movBImm => .movBImm arg
  | some .movCImm => .movCImm arg
  | some .movDImm => .movDImm arg
  | some .movRegReg => .movRegReg (destOf arg) (srcOf arg)
  | some .subAImm => .subAImm arg
  | some .subRegReg => .subRegReg (destOf arg) (srcOf arg)
  | none => .unimplemented (opcodeOf w) arg

/-- Why a stream of words gives no instruction. -/
inductive DecodeReject where
  /-- The stream is empty. No word is ever rejected (30_encoding.md R51). -/
  | noWord
  deriving DecidableEq, Repr

/-- The decoder over a stream of words: it takes exactly one word (30_encoding.md R50) and hands on the rest. -/
def decodeWords : List Word → Except DecodeReject (Instr × List Word)
  | [] => .error .noWord
  | w :: rest => .ok (decode w, rest)

/-- The opcode and the argument of an instruction (30_encoding.md R52, R64). -/
def Instr.fields : Instr → Byte × Byte
  | .movAImm imm => (Mnemonic.movAImm.opcode, imm)
  | .movBImm imm => (Mnemonic.movBImm.opcode, imm)
  | .movCImm imm => (Mnemonic.movCImm.opcode, imm)
  | .movDImm imm => (Mnemonic.movDImm.opcode, imm)
  | .movRegReg d s => (Mnemonic.movRegReg.opcode, d ++ s)
  | .subAImm imm => (Mnemonic.subAImm.opcode, imm)
  | .subRegReg d s => (Mnemonic.subRegReg.opcode, d ++ s)
  | .unimplemented opcode argument => (opcode, argument)

/-- Encode: the word whose high byte is the opcode and whose low byte is the argument (30_encoding.md R64). -/
def encode (i : Instr) : Word := i.fields.1 ++ i.fields.2

/-- The words of an instruction: always exactly one (30_encoding.md R50). -/
def encodeWords (i : Instr) : List Word := [encode i]

/-- The words that `nbits` bits numbered `w` lay out in memory, first word first; the bits from `nbits` up are 0.
The core is addressed by word and has no byte order (20_memory.md R39): notes/assumptions/11.md. -/
def wordsOfBits (nbits w : Nat) : List Word := [BitVec.ofNat 16 (w % 2 ^ nbits)]

/-- The instruction the decoder reads from the bits `w` of one row of the opcode table. -/
def decodeTableWord (nbits w : Nat) : Option Instr :=
  match decodeWords (wordsOfBits nbits w) with
  | .ok (i, _) => some i
  | .error _ => none

end Sys2Proof
end

