-- ==== Sys2Proof/Machine/Flags.lean ====
section
/-! DEFINITION. The word arithmetic (00_scope.md R7, 42_subtract.md R84). There is no flag to compute: no subtraction
writes CA or Z, and the borrow is discarded (42_subtract.md R85), so an operation of the ALU is its result alone. -/

namespace Sys2Proof.Machine

/-- `sub16(a, b) = (a - b) mod 65536`, the ALU's one operation (42_subtract.md R84). -/
def sub16 (a b : Word) : Word := a - b

/-- The 16-bit increment of the IR advance, which wraps (40_cycle.md R72). -/
def inc16 (a : Word) : Word := a + 1#16

end Sys2Proof.Machine
end

