-- ==== Sys2Proof/Config.lean ====
section
/-! DEFINITION. What an implementation fixes and the spec leaves open (00_scope.md R5). The fixed widths and counts of
R5 are the types of `Sys2Proof/Word.lean` and the constructors of `Sys2Proof.Reg`; `MEM_SIZE` and `INIT_MEM` are
arguments of the construction (`Sys2Proof.Machine.Construction`). -/

namespace Sys2Proof.Config

/-- `DEFAULT_MEM_SIZE`: the size used when the caller supplies no memory. OPEN in the spec (R5, R33), so it has no body
and no proof can see its value. DESIGN CHOICE, safe: notes/assumptions/4.md. -/
opaque defaultMemSize : Nat

end Sys2Proof.Config
end

