-- ==== Sys2Proof/Machine/State.lean ====
section
/-! DEFINITION. The machine's state, the reports a step makes, and the state after reset (10_state.md, 20_memory.md,
60_exceptions.md R93 and R94, 40_cycle.md R74, 70_reset_and_hazards.md R110). -/

namespace Sys2Proof.Machine

/-- The register file: exactly 8 registers of 16 bits (10_state.md R15, R16). -/
structure RegFile where
  a : Word
  b : Word
  c : Word
  d : Word
  ca : Word
  ir : Word
  z : Word
  lr : Word
  deriving DecidableEq, Repr

/-- One word of memory at a word index. The spec's memory has no byte (20_memory.md R39): notes/assumptions/1.md. -/
abbrev WordCell := Nat × Word

/-- The memory array: a recorded capacity, and the cells that are not 0 in rising order of their indices
(20_memory.md R31). A cell below the capacity that is not listed holds 0 (R33). -/
structure Memory where
  size : Nat
  cells : List WordCell
  deriving DecidableEq, Repr

/-- The diagnostic events of 40_cycle.md R74. -/
inductive Event where
  /-- `Executed(opcode, argument, mnemonic)`. -/
  | executed (opcode argument : Byte) (mnemonic : Mnemonic)
  /-- `Unimplemented(opcode)`. -/
  | unimplemented (opcode : Byte)
  /-- `HaltedEv(ip)`. -/
  | halted (ip : Word)
  deriving DecidableEq, Repr

/-- Which nibble of a format RR argument an error names (60_exceptions.md R94). -/
inductive IndexField where
  | dest | src
  deriving DecidableEq, Repr

/-- The `info` of an error record: the first invalid nibble (60_exceptions.md R94). -/
structure ErrorInfo where
  index : Nibble
  field : IndexField
  deriving DecidableEq, Repr

/-- The causes that have a code (60_exceptions.md R93). -/
inductive Cause where
  | unknownRegister | outOfBounds
  deriving DecidableEq, Repr

/-- The record an `Error` outcome carries (60_exceptions.md R94). -/
structure ErrorRecord where
  address : Word
  cause : Cause
  info : ErrorInfo
  deriving DecidableEq, Repr

/-- `StepOutcome` (00_scope.md R12, 60_exceptions.md R94). -/
inductive StepOutcome where
  | continued
  | halted
  | error (record : ErrorRecord)
  deriving DecidableEq, Repr

/-- `RunOutcome` (00_scope.md R12, 60_exceptions.md R94). -/
inductive RunOutcome where
  | halted
  | error (record : ErrorRecord)
  deriving DecidableEq, Repr

/-- The state of the core and its memory. -/
structure State where
  /-- The eight registers (10_state.md R15, R16). -/
  regs : RegFile
  /-- The memory with its capacity (20_memory.md R31). -/
  mem : Memory
  /-- The hidden per-step signal (10_state.md R28): false between steps, notes/assumptions/7.md. -/
  irWritten : Bool
  /-- The MODEL's own field: what the event output has carried, oldest first (40_cycle.md R74). No rule reads it:
  notes/assumptions/6.md. -/
  events : List Event
  deriving DecidableEq, Repr

/-- How a step can stop the run. -/
inductive Fault where
  /-- `Error(UnknownRegister)`: raised by MOV_REG_REG and SUB_REG_REG when a nibble of 8 or more names no register, with
  the failing instruction's address and the first invalid nibble (41_move.md R78, 60_exceptions.md R94). The state is
  the one before the step (R97). Safe: the spec itself ends the step here, notes/assumptions/3.md. -/
  | unknownRegister (address : Word) (info : ErrorInfo)
  deriving DecidableEq, Repr

/-- Why the model gives an instruction no meaning. -/
inductive Refusal where
  /-- Answered only by an arm of `exec` that has no meaning yet; no arm answers it. Safe: nothing is claimed. -/
  | notModelled (mnemonic : String)
  deriving DecidableEq, Repr

/-- The core right after construction with no memory supplied: every register 0 (10_state.md R29, 70_reset_and_hazards.md
R110), `DEFAULT_MEM_SIZE` cells, all 0 (20_memory.md R33). Construction is the only reset (R109): notes/assumptions/4.md.
`irWritten` and `events` are DESIGN CHOICE: notes/assumptions/7.md and notes/assumptions/6.md. -/
def State.reset : State where
  regs := { a := 0, b := 0, c := 0, d := 0, ca := 0, ir := 0, z := 0, lr := 0 }
  mem := { size := Config.defaultMemSize, cells := [] }
  irWritten := false
  events := []

end Sys2Proof.Machine
end

