-- ==== Sys2Proof/Machine/Operands.lean ====
section
/-! DEFINITION. The operand forms: the immediate of format I, the two register indices of format RR, and the names of
the host register port (10_state.md R16, 30_encoding.md R53 and R54, 41_move.md R78). -/

namespace Sys2Proof.Machine

/-- Format I: the operand value of an 8-bit immediate (30_encoding.md R53). -/
def zext16 (imm : Byte) : Word := imm.setWidth 16

/-- The position of each register in the fixed list (10_state.md R16). -/
def regIndex : Reg → Nibble
  | .a => 0
  | .b => 1
  | .c => 2
  | .d => 3
  | .ca => 4
  | .ir => 5
  | .z => 6
  | .lr => 7

/-- The closed list of registers, by position (10_state.md R16). -/
def allRegs : List Reg := [.a, .b, .c, .d, .ca, .ir, .z, .lr]

/-- The register a nibble names: none for 8 to 15 (30_encoding.md R60). -/
def regOfIndex (n : Nibble) : Option Reg := allRegs[n.toNat]?

/-- The name of each register (10_state.md R16). -/
def regName : Reg → String
  | .a => "A"
  | .b => "B"
  | .c => "C"
  | .d => "D"
  | .ca => "CA"
  | .ir => "IR"
  | .z => "Z"
  | .lr => "LR"

/-- The register an exact, case-sensitive name names (10_state.md R25). DEDUCED, safe: notes/assumptions/12.md. -/
def regOfName (name : String) : Option Reg := allRegs.find? (fun r => regName r == name)

/-- `resolve(d, s)`: the two registers of a format RR instruction, or the first invalid nibble, the destination checked
first (41_move.md R78). -/
def resolve (d s : Nibble) : Except ErrorInfo (Reg × Reg) :=
  match regOfIndex d, regOfIndex s with
  | none, _ => .error { index := d, field := .dest }
  | some _, none => .error { index := s, field := .src }
  | some rd, some rs => .ok (rd, rs)

end Sys2Proof.Machine
end

