-- ==== Sys2Proof/Machine/Ops.lean ====
section
/-! DEFINITION. The named operations: registers, memory cells, the error of a step, the event output, the parts of the
step around execution, and construction. -/

namespace Sys2Proof.Machine

/-! ### Registers -/

/-- `x[r]` of a register file (00_scope.md R8). -/
def RegFile.get (f : RegFile) : Reg → Word
  | .a => f.a
  | .b => f.b
  | .c => f.c
  | .d => f.d
  | .ca => f.ca
  | .ir => f.ir
  | .z => f.z
  | .lr => f.lr

/-- `x[r] <- v` of a register file. No register is hardwired (10_state.md R18). -/
def RegFile.set (f : RegFile) (r : Reg) (v : Word) : RegFile :=
  match r with
  | .a => { f with a := v }
  | .b => { f with b := v }
  | .c => { f with c := v }
  | .d => { f with d := v }
  | .ca => { f with ca := v }
  | .ir => { f with ir := v }
  | .z => { f with z := v }
  | .lr => { f with lr := v }

/-- The instruction pointer, `x[IR]` (10_state.md R19). -/
def ip (s : State) : Word := s.regs.get .ir

/-- An instruction's read of a register (00_scope.md R8). -/
def readReg (r : Reg) (s : State) : Word := s.regs.get r

/-- An instruction's write of a register: it raises `ir_written` exactly when the register is IR, whatever the value
(00_scope.md R8, 10_state.md R28). -/
def writeReg (r : Reg) (v : Word) (s : State) : State :=
  { s with regs := s.regs.set r v, irWritten := s.irWritten || r == .ir }

/-! ### Memory cells -/

/-- The listed value at an index; 0 where nothing is listed (20_memory.md R33). -/
def lookupCell : List WordCell → Nat → Word
  | [], _ => 0
  | (b, u) :: rest, i => if i = b then u else lookupCell rest i

/-- A cell in front of a list, left out when it holds what an unlisted cell holds. -/
def consCell (i : Nat) (v : Word) (rest : List WordCell) : List WordCell :=
  if v = 0 then rest else (i, v) :: rest

/-- The list with the cell at an index holding a value, in canonical form. -/
def storeCell : List WordCell → Nat → Word → List WordCell
  | [], i, v => consCell i v []
  | (b, u) :: rest, i, v =>
    if i < b then consCell i v ((b, u) :: rest)
    else if i = b then consCell i v rest
    else (b, u) :: storeCell rest i v

/-- The canonical form of a list of cells: indices rising from `lo` on, each below `size`, and no cell 0. -/
def cellsWf (lo size : Nat) : List WordCell → Bool
  | [] => true
  | (i, v) :: rest => lo ≤ i && i < size && v != 0 && cellsWf (i + 1) size rest

/-- The canonical form of a memory: equal memories are equal data. -/
def Memory.wf (m : Memory) : Bool := cellsWf 0 m.size m.cells

/-- `MemRead(i, 1)`, for an index below the capacity (00_scope.md R9). -/
def Memory.cellAt (m : Memory) (i : Nat) : Word := lookupCell m.cells i

/-- `MemWrite(i, 1, v)`, for an index below the capacity (00_scope.md R9). -/
def Memory.withCell (m : Memory) (i : Nat) (v : Word) : Memory :=
  { m with cells := storeCell m.cells i v }

/-- The controller's bounds-checked read: none is `OutOfBounds` (20_memory.md R35). -/
def Memory.read (m : Memory) (i : Nat) : Option Word :=
  if i < m.size then some (m.cellAt i) else none

/-- The controller's bounds-checked write: none is `OutOfBounds` (20_memory.md R36). -/
def Memory.write (m : Memory) (i : Nat) (v : Word) : Option Memory :=
  if i < m.size then some (m.withCell i v) else none

/-- The memory snapshot of 60_exceptions.md R103: every word, from index 0. -/
def Memory.snapshot (m : Memory) : List Word := (List.range m.size).map m.cellAt

/-! ### Construction -/

/-- `new(size)`: `size` cells, all 0 (20_memory.md R33). -/
def Memory.new (size : Nat) : Memory := { size := size, cells := [] }

/-- The canonical cells of a list of words, the first at index `i`. -/
def cellsFrom (i : Nat) : List Word → List WordCell
  | [] => []
  | w :: ws => consCell i w (cellsFrom (i + 1) ws)

/-- `new(INIT_MEM)`: the pre-populated words, their number being the capacity (20_memory.md R33, 00_scope.md R5). -/
def Memory.ofWords (ws : List Word) : Memory := { size := ws.length, cells := cellsFrom 0 ws }

/-- What the caller gives the construction (00_scope.md R12, 70_reset_and_hazards.md R109). -/
inductive Construction where
  /-- `new(MEM_SIZE)`. -/
  | size (n : Nat)
  /-- `new(INIT_MEM)`. -/
  | words (ws : List Word)
  /-- No memory: `DEFAULT_MEM_SIZE` zero cells. -/
  | default
  deriving DecidableEq, Repr

/-- The memory of a construction (20_memory.md R33). -/
def Construction.memory : Construction → Memory
  | .size n => Memory.new n
  | .words ws => Memory.ofWords ws
  | .default => Memory.new Config.defaultMemSize

/-- Construction, the core's only reset (70_reset_and_hazards.md R109, R110). -/
def construct (c : Construction) : State := { State.reset with mem := c.memory }

/-! ### The error of a step -/

/-- `raise Error(UnknownRegister, info)`: the step ends with no state change and reports the address of the failing
instruction, which IR still holds (60_exceptions.md R94, R97; 10_state.md R20). There is no trap entry and no return
(R98): notes/assumptions/3.md. -/
def raiseUnknownRegister (info : ErrorInfo) (s : State) : Host.Outcome State Fault Refusal :=
  .fault (.unknownRegister (ip s) info)

/-- The record of the `Error` outcome (60_exceptions.md R94). -/
def Fault.record : Fault → ErrorRecord
  | .unknownRegister address info => { address := address, cause := .unknownRegister, info := info }

/-! ### The step around execution -/

/-- `emit E` (00_scope.md R10). -/
def emit (e : Event) (s : State) : State := { s with events := s.events ++ [e] }

/-- The run state: Halted exactly when `x[IR] >= MEM_SIZE`, compared as unbounded integers (10_state.md R24,
40_cycle.md R66). -/
def halted (s : State) : Bool := decide (s.mem.size ≤ (ip s).toNat)

/-- A step of a halted core: the event and nothing else (40_cycle.md R66, R76). -/
def haltedStep (s : State) : State := emit (.halted (ip s)) s

/-- The fetch read, issued only when the core is not halted (40_cycle.md R67, 20_memory.md R37). -/
def fetchWord (s : State) : Word := s.mem.cellAt (ip s).toNat

/-- `ir_written` is cleared at the start of execution (10_state.md R28). -/
def beginExecute (s : State) : State := { s with irWritten := false }

/-- The `Executed` event of an implemented opcode (40_cycle.md R74). -/
def emitExecuted (w : Word) (s : State) : State :=
  match lookupOpcode (opcodeOf w) with
  | some m => emit (.executed (opcodeOf w) (argumentOf w) m) s
  | none => s

/-- The IR advance, skipped when the instruction wrote IR (40_cycle.md R71, R72). -/
def advanceIr (s : State) : State :=
  if s.irWritten then s else { s with regs := s.regs.set .ir (inc16 (ip s)) }

/-- `ir_written` holds no value between steps (10_state.md R28): notes/assumptions/7.md. -/
def endStep (s : State) : State := { s with irWritten := false }

/-- What the step does after an instruction has executed (40_cycle.md R65). -/
def completeStep (w : Word) (s : State) : State := endStep (advanceIr (emitExecuted w s))

/-! ### Placing a word where the next step fetches -/

/-- The capacity raised to at least `n`, unchanged when it is that already: `max`, written so that the kernel sees it is
at least `n` even of an open capacity. -/
def Memory.growTo (m : Memory) (n : Nat) : Memory := { m with size := (m.size - n) + n }

/-- A program word placed at the fetch address, as a construction with a pre-populated memory would
(70_reset_and_hazards.md R111): notes/assumptions/5.md. -/
def placeFetchWords (ws : List Word) (s : State) : State :=
  match ws with
  | [] => s
  | w :: _ => { s with mem := (s.mem.growTo ((ip s).toNat + 1)).withCell (ip s).toNat w }

end Sys2Proof.Machine
end

