-- ==== Sys2Proof/Machine/Move.lean ====
section
/-! DEFINITION. The register-transfer instructions (41_move.md). Each meaning is the execute part of the step only. -/

namespace Sys2Proof.Machine

/-- MOV_A_IMM: `x[A] <- zext_16(imm8)` (41_move.md R79). -/
def execMovAImm (imm : Byte) (s : State) : Host.Outcome State Fault Refusal :=
  .next (writeReg .a (zext16 imm) s)

/-- MOV_B_IMM: `x[B] <- zext_16(imm8)` (41_move.md R80). -/
def execMovBImm (imm : Byte) (s : State) : Host.Outcome State Fault Refusal :=
  .next (writeReg .b (zext16 imm) s)

/-- MOV_C_IMM: `x[C] <- zext_16(imm8)` (41_move.md R81). -/
def execMovCImm (imm : Byte) (s : State) : Host.Outcome State Fault Refusal :=
  .next (writeReg .c (zext16 imm) s)

/-- MOV_D_IMM: `x[D] <- zext_16(imm8)` (41_move.md R82). -/
def execMovDImm (imm : Byte) (s : State) : Host.Outcome State Fault Refusal :=
  .next (writeReg .d (zext16 imm) s)

/-- MOV_REG_REG: resolve both indices, then `x[d] <- x[s]` (41_move.md R83). -/
def execMovRegReg (d src : Nibble) (s : State) : Host.Outcome State Fault Refusal :=
  match resolve d src with
  | .error info => raiseUnknownRegister info s
  | .ok (rd, rs) => .next (writeReg rd (readReg rs s) s)

end Sys2Proof.Machine
end

