-- ==== Sys2Proof/Machine/Subtract.lean ====
section
/-! DEFINITION. The subtractions (42_subtract.md). Each meaning is the execute part of the step only; no flag is written
(R85). -/

namespace Sys2Proof.Machine

/-- SUB_A_IMM: `x[A] <- sub16(x[A], zext_16(imm8))` (42_subtract.md R86). -/
def execSubAImm (imm : Byte) (s : State) : Host.Outcome State Fault Refusal :=
  .next (writeReg .a (sub16 (readReg .a s) (zext16 imm)) s)

/-- SUB_REG_REG: resolve both indices, read both registers, then `x[d] <- sub16(x[d], x[s])` (42_subtract.md R87). -/
def execSubRegReg (d src : Nibble) (s : State) : Host.Outcome State Fault Refusal :=
  match resolve d src with
  | .error info => raiseUnknownRegister info s
  | .ok (rd, rs) => .next (writeReg rd (sub16 (readReg rd s) (readReg rs s)) s)

end Sys2Proof.Machine
end

