-- ==== Sys2Proof/Machine/Unimplemented.lean ====
section
/-! DEFINITION. The unimplemented fallback (40_cycle.md R70). -/

namespace Sys2Proof.Machine

/-- An opcode outside the catalog: emit the diagnostic, which carries the opcode alone, and write nothing
(40_cycle.md R70, 30_encoding.md R55). -/
def execUnimplemented (opcode _argument : Byte) (s : State) : Host.Outcome State Fault Refusal :=
  .next (emit (.unimplemented opcode) s)

end Sys2Proof.Machine
end

