-- ==== Sys2Proof/Machine/Dispatch.lean ====
section
/-! DEFINITION. The fixed dispatch, one arm per instruction (40_cycle.md R69). -/

namespace Sys2Proof.Machine

/-- The execute part of one instruction. -/
def exec (i : Instr) (s : State) : Host.Outcome State Fault Refusal :=
  match i with
  | .movAImm imm => Sys2Proof.Machine.execMovAImm imm s
  | .movBImm imm => Sys2Proof.Machine.execMovBImm imm s
  | .movCImm imm => Sys2Proof.Machine.execMovCImm imm s
  | .movDImm imm => Sys2Proof.Machine.execMovDImm imm s
  | .movRegReg d src => Sys2Proof.Machine.execMovRegReg d src s
  | .subAImm imm => Sys2Proof.Machine.execSubAImm imm s
  | .subRegReg d src => Sys2Proof.Machine.execSubRegReg d src s
  | .unimplemented opcode argument => Sys2Proof.Machine.execUnimplemented opcode argument s

end Sys2Proof.Machine
end

