-- ==== Sys2Proof/Machine/Step.lean ====
section
/-! DEFINITION. One fetch-decode-execute-advance cycle (40_cycle.md R65). -/

namespace Sys2Proof.Machine

/-- `step()` (40_cycle.md R65). A halted step answers a next state, since it is a no-op and never an error (R76):
notes/assumptions/2.md. An error of the instruction ends the step with nothing of it in effect (60_exceptions.md R97). -/
def step (s : State) : Host.Outcome State Fault Refusal :=
  if halted s then .next (haltedStep s)
  else
    match exec (decode (fetchWord s)) (beginExecute s) with
    | .next t => .next (completeStep (fetchWord s) t)
    | .fault f => .fault f
    | .refused r => .refused r

/-- The state with the bits `w` of one instruction placed where the next step fetches: notes/assumptions/5.md. -/
def State.withFetchWord (s : State) (nbits w : Nat) : State :=
  placeFetchWords (wordsOfBits nbits w) s

end Sys2Proof.Machine
end

