-- ==== Sys2Proof/Machine/Assembly.lean ====
section
/-! DEFINITION. The assembly lines of 30_encoding.md R62 and the words they stand for. The text of a line is not
modelled: notes/assumptions/13.md. -/

namespace Sys2Proof.Machine

/-- A line of the syntax table of 30_encoding.md R62, an immediate being any number. -/
inductive AsmLine where
  /-- `MOV rd,#n`. -/
  | movImm (rd : Reg) (n : Nat)
  /-- `MOV rd,rs`. -/
  | movReg (rd rs : Reg)
  /-- `SUB rd,#n`. -/
  | subImm (rd : Reg) (n : Nat)
  /-- `SUB rd,rs`. -/
  | subReg (rd rs : Reg)
  /-- `.word w`. -/
  | word (w : Word)
  deriving DecidableEq, Repr

/-- The opcode base of `MOV rd,#n`, for the registers that have one (30_encoding.md R62). -/
def movImmBase : Reg → Option Word
  | .a => some 0x0200#16
  | .b => some 0x0300#16
  | .c => some 0x0400#16
  | .d => some 0x0500#16
  | .ca => none
  | .ir => none
  | .z => none
  | .lr => none

/-- The opcode base of `SUB rd,#n`, for the register that has one (30_encoding.md R62). -/
def subImmBase : Reg → Option Word
  | .a => some 0x1A00#16
  | .b => none
  | .c => none
  | .d => none
  | .ca => none
  | .ir => none
  | .z => none
  | .lr => none

/-- `base | n` for an immediate in `[0, 255]` (30_encoding.md R62). -/
def withImmediate (base : Word) (n : Nat) : Option Word :=
  if n ≤ 255 then some (base ||| BitVec.ofNat 16 n) else none

/-- `base | (idx(rd) << 4) | idx(rs)` (30_encoding.md R62). -/
def withRegisters (base : Word) (rd rs : Reg) : Word :=
  base ||| ((regIndex rd).setWidth 16 <<< 4) ||| (regIndex rs).setWidth 16

/-- The word of a line; none where the line is no instruction (30_encoding.md R62). -/
def assemble : AsmLine → Option Word
  | .movImm rd n => (movImmBase rd).bind (fun base => withImmediate base n)
  | .movReg rd rs => some (withRegisters 0x0600#16 rd rs)
  | .subImm rd n => (subImmBase rd).bind (fun base => withImmediate base n)
  | .subReg rd rs => some (withRegisters 0x1B00#16 rd rs)
  | .word w => some w

end Sys2Proof.Machine
end

