-- ==== Sys2Proof/Machine/Codes.lean ====
section
/-! DEFINITION. The spec's own numbers for causes and outcomes, and its names for opcodes (60_exceptions.md R93, R94;
30_encoding.md R56). -/

namespace Sys2Proof.Machine

/-- The cause codes of 60_exceptions.md R93. -/
def Cause.code : Cause → Nat
  | .unknownRegister => 1
  | .outOfBounds => 2

/-- The outcome codes of 60_exceptions.md R94. -/
def StepOutcome.code : StepOutcome → Nat
  | .continued => 0
  | .halted => 1
  | .error _ => 2

/-- The mnemonic as the diagnostic event spells it (30_encoding.md R56, 40_cycle.md R74). -/
def mnemonicName : Mnemonic → String
  | .movAImm => "MOV_A_IMM"
  | .movBImm => "MOV_B_IMM"
  | .movCImm => "MOV_C_IMM"
  | .movDImm => "MOV_D_IMM"
  | .movRegReg => "MOV_REG_REG"
  | .subAImm => "SUB_A_IMM"
  | .subRegReg => "SUB_REG_REG"

end Sys2Proof.Machine
end

