-- ==== Sys2Proof/Machine/Ports.lean ====
section
/-! DEFINITION. The host register port and the host memory port (10_state.md R25 to R27, 20_memory.md R35 and R36). -/

namespace Sys2Proof.Machine

/-- `get_register(name)` (10_state.md R25). -/
def getRegister (name : String) (s : State) : Except Cause Word :=
  match regOfName name with
  | some r => .ok (s.regs.get r)
  | none => .error .unknownRegister

/-- `set_register(name, v)`: it happens outside any step, so it does not raise `ir_written` (10_state.md R26). -/
def setRegister (name : String) (v : Word) (s : State) : Except Cause State :=
  match regOfName name with
  | some r => .ok { s with regs := s.regs.set r v }
  | none => .error .unknownRegister

/-- `read(index)` (20_memory.md R35). -/
def hostRead (i : Nat) (s : State) : Except Cause Word :=
  match s.mem.read i with
  | some v => .ok v
  | none => .error .outOfBounds

/-- `write(index, v)` (20_memory.md R36). -/
def hostWrite (i : Nat) (v : Word) (s : State) : Except Cause State :=
  match s.mem.write i v with
  | some m => .ok { s with mem := m }
  | none => .error .outOfBounds

end Sys2Proof.Machine
end

