-- ==== Sys2Proof/Machine/Run.lean ====
section
/-! DEFINITION. The control port: `step()` with its outcome, and `run()` under fuel (40_cycle.md R65, R75). -/

namespace Sys2Proof.Machine

/-- `step()` as a transaction: its outcome and the state it leaves. Halted is read off IR before the step (10_state.md
R24); an error leaves the state as it was (60_exceptions.md R97). A refusal of the model is passed on as such. -/
def stepCall (s : State) : Except Refusal StepOutcome × State :=
  match step s with
  | .next t => (.ok (if halted s then .halted else .continued), t)
  | .fault f => (.ok (.error f.record), s)
  | .refused r => (.error r, s)

/-- `run()` under fuel: at most `n` calls of `step()`, stopping at the first that is Halted or an Error (40_cycle.md
R75). The outcome none says that the fuel ran out, which is not Halted: notes/assumptions/10.md. -/
def runCall : Nat → State → Except Refusal (Option RunOutcome) × State
  | 0, s => (.ok none, s)
  | n + 1, s =>
    match stepCall s with
    | (.ok .continued, t) => runCall n t
    | (.ok .halted, t) => (.ok (some .halted), t)
    | (.ok (.error record), t) => (.ok (some (.error record)), t)
    | (.error r, t) => (.error r, t)

end Sys2Proof.Machine
end

