-- ==== Sys2Proof/Machine/Session.lean ====
section
/-! DEFINITION. The host's transactions on the ports, one after another (00_scope.md R12, 20_memory.md R44 and R47). -/

namespace Sys2Proof.Machine

/-- The transactions of 00_scope.md R12. `run()` carries the fuel it is modelled with: notes/assumptions/10.md. -/
inductive Transaction where
  | step
  | run (fuel : Nat)
  | getRegister (name : String)
  | setRegister (name : String) (v : Word)
  | read (index : Nat)
  | write (index : Nat) (v : Word)
  deriving DecidableEq, Repr

/-- What a transaction returns (00_scope.md R12). -/
inductive Response where
  | stepped (outcome : StepOutcome)
  /-- None: `run()` has given no result within its fuel. -/
  | ran (outcome : Option RunOutcome)
  | value (v : Word)
  | ok
  | failed (cause : Cause)
  /-- The model gave the instruction no meaning. -/
  | refused (r : Refusal)
  deriving DecidableEq, Repr

/-- One transaction, complete before anything else happens (20_memory.md R47). -/
def transact (x : Transaction) (s : State) : Response × State :=
  match x with
  | .step =>
    match stepCall s with
    | (.ok o, t) => (.stepped o, t)
    | (.error r, t) => (.refused r, t)
  | .run fuel =>
    match runCall fuel s with
    | (.ok o, t) => (.ran o, t)
    | (.error r, t) => (.refused r, t)
  | .getRegister name =>
    match getRegister name s with
    | .ok v => (.value v, s)
    | .error c => (.failed c, s)
  | .setRegister name v =>
    match setRegister name v s with
    | .ok t => (.ok, t)
    | .error c => (.failed c, s)
  | .read i =>
    match hostRead i s with
    | .ok v => (.value v, s)
    | .error c => (.failed c, s)
  | .write i v =>
    match hostWrite i v s with
    | .ok t => (.ok, t)
    | .error c => (.failed c, s)

/-- The state after a list of transactions, first to last. -/
def session : List Transaction → State → State
  | [], s => s
  | x :: xs, s => session xs (transact x s).2

/-- The responses to a list of transactions, first to last. -/
def responses : List Transaction → State → List Response
  | [], _ => []
  | x :: xs, s => (transact x s).1 :: responses xs (transact x s).2

end Sys2Proof.Machine
end

