-- ==== Sys2Proof/Safety.lean ====
section
/-! DEFINITION. The terms in which claims speak of safe states and safe runs. -/

namespace Sys2Proof

/-- Both indices of a format RR instruction name a register (30_encoding.md R60). -/
def Instr.namesRegisters : Instr → Bool
  | .movRegReg d src => d.toNat < 8 && src.toNat < 8
  | .subRegReg d src => d.toNat < 8 && src.toNat < 8
  | .movAImm _ => true
  | .movBImm _ => true
  | .movCImm _ => true
  | .movDImm _ => true
  | .subAImm _ => true
  | .unimplemented _ _ => true

/-- The register an instruction names as its destination (10_state.md R17). -/
def Instr.destination : Instr → Option Reg
  | .movAImm _ => some .a
  | .movBImm _ => some .b
  | .movCImm _ => some .c
  | .movDImm _ => some .d
  | .movRegReg d _ => Machine.regOfIndex d
  | .subAImm _ => some .a
  | .subRegReg d _ => Machine.regOfIndex d
  | .unimplemented _ _ => none

end Sys2Proof

namespace Sys2Proof.Machine

/-- The model's invariant between steps: the memory is in its canonical form and the per-step signal holds nothing
(10_state.md R28). -/
def State.Inv (s : State) : Prop := s.mem.wf = true ∧ s.irWritten = false

/-- Nothing but one register and the per-step signal differs: the frame of an instruction that writes register `r`
(10_state.md R17, 20_memory.md R38). -/
def OnlyRegisterMayDiffer (r : Reg) (s t : State) : Prop :=
  (∀ q : Reg, q ≠ r → t.regs.get q = s.regs.get q) ∧ (∀ i : Nat, t.mem.cellAt i = s.mem.cellAt i) ∧
    t.mem.size = s.mem.size ∧ t.events = s.events

/-- The value a transaction writes to an index, if it does. -/
def writtenBy (i : Nat) : Transaction → Option Word
  | .write j v => if j = i then some v else none
  | .step => none
  | .run _ => none
  | .getRegister _ => none
  | .setRegister _ _ => none
  | .read _ => none

/-- The value of the last write to an index in a list of transactions, first to last (20_memory.md R44). -/
def lastWriteTo (i : Nat) : List Transaction → Option Word
  | [] => none
  | x :: xs => (lastWriteTo i xs).or (writtenBy i x)

/-- A run of `k` steps raises no error (60_exceptions.md R97): what a safe run is on this core. -/
def SafeFor (k : Nat) (s : State) : Prop := ∃ t : State, Sys2Proof.core.run k s = .next t

/-- The run state of 10_state.md R24, from IR and the capacity alone. -/
abbrev Running (s : State) : Prop := s.regs.ir.toNat < s.mem.size

end Sys2Proof.Machine
end

