-- ==== Sys2Proof/Certificates/Slice0/Obligations.lean ====
section
/-! DEFINITION. The statements for the provers. Each docstring names the rules of spec/ it formalises. -/

open Sys2Proof Sys2Proof.Machine

/-! ### Encoding -/

/-- Decoding the words of a well-formed instruction gives it back, with every operand at every value (30_encoding.md
R50, R51, R56, R64). The well-formedness of the catch-all is the model's choice: notes/assumptions/8.md. -/
def Obligations.DecodeEncodeRoundTrip : Prop :=
  ∀ (i : Instr) (rest : List Word), i.wf = true → decodeWords (encodeWords i ++ rest) = .ok (i, rest)

/-- Every word decodes to a well-formed instruction, which encodes to that word (30_encoding.md R51, R56). -/
def Obligations.EncodeDecodeRoundTrip : Prop :=
  ∀ w : Word, (decode w).wf = true ∧ encode (decode w) = w

/-- Words written out from the encoding tables decode to the instructions they stand for (30_encoding.md R57, R62). -/
def Obligations.WrittenOutWordsDecode : Prop :=
  decode 0b0000001000000100#16 = .movAImm 4 ∧ decode 0b0000001101111111#16 = .movBImm 0x7F ∧
  decode 0b0000010000000100#16 = .movCImm 4 ∧ decode 0b0000010111111111#16 = .movDImm 0xFF ∧
  decode 0b0000011000010000#16 = .movRegReg 1 0 ∧ decode 0b0001101000000100#16 = .subAImm 4 ∧
  decode 0b0001101101010010#16 = .subRegReg 5 2 ∧ decode 0b1111111100010010#16 = .unimplemented 0xFF 0x12

/-- The decoder's fields are `w >> 8` and `w & 0xFF`, and no word is rejected (30_encoding.md R51). -/
def Obligations.DecodeSplitsEveryWord : Prop :=
  ∀ (w : Word) (rest : List Word),
    (opcodeOf w).toNat = w.toNat >>> 8 ∧ (argumentOf w).toNat = w.toNat &&& 0xFF ∧
      ∃ i, decodeWords (w :: rest) = .ok (i, rest)

/-- Which instruction each of the 256 opcodes selects, with which operand fields (30_encoding.md R52, R54, R56;
40_cycle.md R69). -/
def Obligations.OpcodeSelectsOperation : Prop :=
  ∀ op arg : Byte, decode (op ++ arg) =
    if op = 0x02#8 then .movAImm arg
    else if op = 0x03#8 then .movBImm arg
    else if op = 0x04#8 then .movCImm arg
    else if op = 0x05#8 then .movDImm arg
    else if op = 0x06#8 then .movRegReg (arg.extractLsb' 4 4) (arg.extractLsb' 0 4)
    else if op = 0x1A#8 then .subAImm arg
    else if op = 0x1B#8 then .subRegReg (arg.extractLsb' 4 4) (arg.extractLsb' 0 4)
    else .unimplemented op arg

/-- Word assembly: `w = (opcode << 8) | argument`, and for format RR `argument = (d << 4) | s` (30_encoding.md R64). -/
def Obligations.WordAssembly : Prop :=
  (∀ i : Instr, encode i = (i.fields.1.setWidth 16 <<< 8) ||| i.fields.2.setWidth 16) ∧
  (∀ d s : Nibble, (Instr.movRegReg d s).fields.2 = (d.setWidth 8 <<< 4) ||| s.setWidth 8) ∧
  (∀ d s : Nibble, (Instr.subRegReg d s).fields.2 = (d.setWidth 8 <<< 4) ||| s.setWidth 8)

/-- The syntax table: which lines are instructions, and the word each stands for (30_encoding.md R62). -/
def Obligations.AssemblyLinesGiveTheirWords : Prop :=
  (∀ n : Nat, n ≤ 255 →
    assemble (.movImm .a n) = some (encode (.movAImm (BitVec.ofNat 8 n))) ∧
    assemble (.movImm .b n) = some (encode (.movBImm (BitVec.ofNat 8 n))) ∧
    assemble (.movImm .c n) = some (encode (.movCImm (BitVec.ofNat 8 n))) ∧
    assemble (.movImm .d n) = some (encode (.movDImm (BitVec.ofNat 8 n))) ∧
    assemble (.subImm .a n) = some (encode (.subAImm (BitVec.ofNat 8 n)))) ∧
  (∀ (rd : Reg) (n : Nat), 255 < n → assemble (.movImm rd n) = none ∧ assemble (.subImm rd n) = none) ∧
  (∀ (rd : Reg) (n : Nat), rd = .ca ∨ rd = .ir ∨ rd = .z ∨ rd = .lr → assemble (.movImm rd n) = none) ∧
  (∀ (rd : Reg) (n : Nat), rd ≠ .a → assemble (.subImm rd n) = none) ∧
  (∀ rd rs : Reg, assemble (.movReg rd rs) = some (encode (.movRegReg (regIndex rd) (regIndex rs)))) ∧
  (∀ rd rs : Reg, assemble (.subReg rd rs) = some (encode (.subRegReg (regIndex rd) (regIndex rs)))) ∧
  (∀ w : Word, assemble (.word w) = some w)

/-! ### Registers and the host register port -/

/-- The register names by position, and the nibbles that name none (10_state.md R16). -/
def Obligations.RegisterPositions : Prop :=
  regOfIndex 0 = some .a ∧ regOfIndex 1 = some .b ∧ regOfIndex 2 = some .c ∧ regOfIndex 3 = some .d ∧
  regOfIndex 4 = some .ca ∧ regOfIndex 5 = some .ir ∧ regOfIndex 6 = some .z ∧ regOfIndex 7 = some .lr ∧
  regName .a = "A" ∧ regName .b = "B" ∧ regName .c = "C" ∧ regName .d = "D" ∧
  regName .ca = "CA" ∧ regName .ir = "IR" ∧ regName .z = "Z" ∧ regName .lr = "LR" ∧
  (∀ r : Reg, regOfIndex (regIndex r) = some r) ∧ ∀ n : Nibble, 8 ≤ n.toNat → regOfIndex n = none

/-- No register is hardwired: a read returns what was last written, and a write touches no other register (10_state.md
R18). -/
def Obligations.RegistersHoldWhatWasWritten : Prop :=
  ∀ (s : State) (r q : Reg) (v : Word), readReg q (writeReg r v s) = if q = r then v else readReg q s

/-- Host register read-after-write for the eight names, and the failure of every other name (10_state.md R27). -/
def Obligations.HostRegisterReadAfterWrite : Prop :=
  ∀ (name : String) (v : Word) (s : State),
    (name ∈ ["A", "B", "C", "D", "CA", "IR", "Z", "LR"] →
      ∃ t, setRegister name v s = .ok t ∧ getRegister name t = .ok v) ∧
    (name ∉ ["A", "B", "C", "D", "CA", "IR", "Z", "LR"] →
      setRegister name v s = .error .unknownRegister ∧ getRegister name s = .error .unknownRegister)

/-- `set_register` overwrites the register of that name and nothing else; any other name changes nothing; the per-step
signal is not raised (10_state.md R26). -/
def Obligations.HostSetRegisterWritesOneRegister : Prop :=
  ∀ (v : Word) (s : State),
    transact (.setRegister "A" v) s = (.ok, { s with regs := { s.regs with a := v } }) ∧
    transact (.setRegister "B" v) s = (.ok, { s with regs := { s.regs with b := v } }) ∧
    transact (.setRegister "C" v) s = (.ok, { s with regs := { s.regs with c := v } }) ∧
    transact (.setRegister "D" v) s = (.ok, { s with regs := { s.regs with d := v } }) ∧
    transact (.setRegister "CA" v) s = (.ok, { s with regs := { s.regs with ca := v } }) ∧
    transact (.setRegister "IR" v) s = (.ok, { s with regs := { s.regs with ir := v } }) ∧
    transact (.setRegister "Z" v) s = (.ok, { s with regs := { s.regs with z := v } }) ∧
    transact (.setRegister "LR" v) s = (.ok, { s with regs := { s.regs with lr := v } }) ∧
    ∀ name : String, name ∉ ["A", "B", "C", "D", "CA", "IR", "Z", "LR"] →
      transact (.setRegister name v) s = (.failed .unknownRegister, s)

/-- The host's reads return the current value or fail, and change nothing (10_state.md R25, 20_memory.md R35). -/
def Obligations.HostReadsHaveNoSideEffect : Prop :=
  (∀ s : State,
    transact (.getRegister "A") s = (.value s.regs.a, s) ∧ transact (.getRegister "B") s = (.value s.regs.b, s) ∧
    transact (.getRegister "C") s = (.value s.regs.c, s) ∧ transact (.getRegister "D") s = (.value s.regs.d, s) ∧
    transact (.getRegister "CA") s = (.value s.regs.ca, s) ∧ transact (.getRegister "IR") s = (.value s.regs.ir, s) ∧
    transact (.getRegister "Z") s = (.value s.regs.z, s) ∧ transact (.getRegister "LR") s = (.value s.regs.lr, s)) ∧
  (∀ (s : State) (name : String), name ∉ ["A", "B", "C", "D", "CA", "IR", "Z", "LR"] →
    transact (.getRegister name) s = (.failed .unknownRegister, s)) ∧
  (∀ (s : State) (i : Nat), i < s.mem.size → transact (.read i) s = (.value (s.mem.cellAt i), s)) ∧
  (∀ (s : State) (i : Nat), s.mem.size ≤ i → transact (.read i) s = (.failed .outOfBounds, s))

/-! ### Memory and the host memory port -/

/-- A host write below the capacity stores that word and touches nothing else; at or above it, it fails and changes
nothing (20_memory.md R36). The premise is the model's canonical form: notes/assumptions/1.md. -/
def Obligations.HostWriteStoresOneWord : Prop :=
  ∀ (s : State) (i : Nat) (v : Word), s.mem.wf = true →
    (i < s.mem.size → ∃ t, transact (.write i v) s = (.ok, t) ∧ t.mem.cellAt i = v ∧
      (∀ j, j ≠ i → t.mem.cellAt j = s.mem.cellAt j) ∧ t.mem.size = s.mem.size ∧ t.regs = s.regs ∧
      t.irWritten = s.irWritten ∧ t.events = s.events) ∧
    (s.mem.size ≤ i → transact (.write i v) s = (.failed .outOfBounds, s))

/-- Writing a value twice leaves the same state as writing it once (20_memory.md R41). The premise is the model's
canonical form: notes/assumptions/1.md. -/
def Obligations.HostWriteIsIdempotent : Prop :=
  ∀ (s : State) (i : Nat) (v : Word), s.mem.wf = true →
    (transact (.write i v) (transact (.write i v) s).2).2 = (transact (.write i v) s).2

/-- Over any sequence of host calls and steps, a read returns the value of the most recent write to its index, or what
the index held before the sequence (20_memory.md R44). -/
def Obligations.ReadsReturnTheLastWrite : Prop :=
  ∀ (xs : List Transaction) (s : State) (i : Nat), s.mem.wf = true → i < s.mem.size →
    transact (.read i) (session xs s) = (.value ((lastWriteTo i xs).getD (s.mem.cellAt i)), session xs s)

/-- A host write completed before a step is what that step's fetch reads (20_memory.md R46). -/
def Obligations.FetchSeesTheHostWrite : Prop :=
  ∀ (s : State) (v : Word), s.mem.wf = true → Running s →
    Running (transact (.write s.regs.ir.toNat v) s).2 ∧ fetchWord (transact (.write s.regs.ir.toNat v) s).2 = v

/-- The contents of a memory after each of the three constructions (20_memory.md R33). -/
def Obligations.ConstructedMemoryContents : Prop :=
  (∀ n : Nat, (construct (.size n)).mem.size = n ∧ (construct (.size n)).mem.snapshot = List.replicate n 0) ∧
  (∀ ws : List Word, (construct (.words ws)).mem.size = ws.length ∧ (construct (.words ws)).mem.snapshot = ws) ∧
  (construct .default).mem.size = Config.defaultMemSize ∧
  (construct .default).mem.snapshot = List.replicate Config.defaultMemSize 0

/-- A word placed for the next fetch is what the next step fetches; nothing else changes but a capacity that was too
small. The model's interface for loading a program (70_reset_and_hazards.md R111): notes/assumptions/5.md. -/
def Obligations.PlacedWordIsFetched : Prop :=
  ∀ (s : State) (w : Word), s.mem.wf = true →
    Running (s.withFetchWord 16 w.toNat) ∧ fetchWord (s.withFetchWord 16 w.toNat) = w ∧
    (s.withFetchWord 16 w.toNat).mem.size = max s.mem.size (s.regs.ir.toNat + 1) ∧
    (∀ j, j ≠ s.regs.ir.toNat → (s.withFetchWord 16 w.toNat).mem.cellAt j = s.mem.cellAt j) ∧
    (s.withFetchWord 16 w.toNat).mem.wf = true ∧ (s.withFetchWord 16 w.toNat).regs = s.regs ∧
    (s.withFetchWord 16 w.toNat).irWritten = s.irWritten ∧ (s.withFetchWord 16 w.toNat).events = s.events

/-! ### Construction, the only reset -/

/-- After any construction every register is 0, and the core runs at address 0 unless the memory is empty (10_state.md
R29). -/
def Obligations.ConstructionZeroesRegisters : Prop :=
  ∀ c : Construction,
    (construct c).regs = { a := 0, b := 0, c := 0, d := 0, ca := 0, ir := 0, z := 0, lr := 0 } ∧
    (Running (construct c) ↔ 0 < (construct c).mem.size)

/-- The model's invariant holds after reset and after any construction (70_reset_and_hazards.md R110). That the signal
reads false between steps is the model's choice: notes/assumptions/7.md. -/
def Obligations.ResetMeetsTheInvariant : Prop :=
  State.reset.Inv ∧ State.reset = construct .default ∧ ∀ c : Construction, (construct c).Inv

/-! ### The ALU -/

/-- 16-bit subtraction wraps: both cases of the law (42_subtract.md R84). -/
def Obligations.SubtractionWraps : Prop :=
  ∀ a b : Word,
    (b.toNat ≤ a.toNat → (sub16 a b).toNat = a.toNat - b.toNat) ∧
    (a.toNat < b.toNat → (sub16 a b).toNat = 65536 - (b.toNat - a.toNat)) ∧
    ((sub16 a b).toNat : Int) = ((a.toNat : Int) - (b.toNat : Int)) % 65536

/-! ### The execute part of each instruction: that it completes, its result, its frame -/

/-- MOV_A_IMM to MOV_D_IMM complete in every state with the zero-extended immediate in their register and nothing else
changed (41_move.md R79 to R82). -/
def Obligations.ImmediateMovesComplete : Prop :=
  ∀ (imm : Byte) (s : State),
    (∃ t, exec (.movAImm imm) s = .next t ∧ t.regs.a.toNat = imm.toNat ∧ OnlyRegisterMayDiffer .a s t ∧
      t.irWritten = s.irWritten) ∧
    (∃ t, exec (.movBImm imm) s = .next t ∧ t.regs.b.toNat = imm.toNat ∧ OnlyRegisterMayDiffer .b s t ∧
      t.irWritten = s.irWritten) ∧
    (∃ t, exec (.movCImm imm) s = .next t ∧ t.regs.c.toNat = imm.toNat ∧ OnlyRegisterMayDiffer .c s t ∧
      t.irWritten = s.irWritten) ∧
    (∃ t, exec (.movDImm imm) s = .next t ∧ t.regs.d.toNat = imm.toNat ∧ OnlyRegisterMayDiffer .d s t ∧
      t.irWritten = s.irWritten)

/-- MOV_REG_REG completes for every two indices that name registers, with the source's value in the destination and
nothing else changed; the per-step signal is raised exactly when the destination is IR (41_move.md R83, 10_state.md
R28). -/
def Obligations.MoveRegisterCompletes : Prop :=
  ∀ (rd rs : Reg) (s : State), ∃ t, exec (.movRegReg (regIndex rd) (regIndex rs)) s = .next t ∧
    t.regs.get rd = s.regs.get rs ∧ OnlyRegisterMayDiffer rd s t ∧
    (t.irWritten = true ↔ s.irWritten = true ∨ rd = .ir)

/-- SUB_A_IMM completes in every state with the wrapped difference in A and nothing else changed, CA and Z included
(42_subtract.md R84 to R86). -/
def Obligations.SubtractImmediateCompletes : Prop :=
  ∀ (imm : Byte) (s : State), ∃ t, exec (.subAImm imm) s = .next t ∧
    (t.regs.a.toNat : Int) = ((s.regs.a.toNat : Int) - (imm.toNat : Int)) % 65536 ∧ OnlyRegisterMayDiffer .a s t ∧
    t.irWritten = s.irWritten

/-- SUB_REG_REG completes for every two indices that name registers, with the wrapped difference of the old values in
the destination and nothing else changed (42_subtract.md R84, R85, R87; 10_state.md R28). -/
def Obligations.SubtractRegisterCompletes : Prop :=
  ∀ (rd rs : Reg) (s : State), ∃ t, exec (.subRegReg (regIndex rd) (regIndex rs)) s = .next t ∧
    ((t.regs.get rd).toNat : Int) = (((s.regs.get rd).toNat : Int) - ((s.regs.get rs).toNat : Int)) % 65536 ∧
    OnlyRegisterMayDiffer rd s t ∧ (t.irWritten = true ↔ s.irWritten = true ∨ rd = .ir)

/-- An unimplemented opcode completes in every state, whatever its argument: the diagnostic, and nothing else
(40_cycle.md R70, 30_encoding.md R55). -/
def Obligations.UnimplementedCompletes : Prop :=
  ∀ (opcode argument : Byte) (s : State),
    exec (.unimplemented opcode argument) s = .next { s with events := s.events ++ [.unimplemented opcode] }

/-- A nibble of 8 or more ends both register-register instructions in the error that names it, the destination first
(41_move.md R78). -/
def Obligations.InvalidIndexRaisesError : Prop :=
  ∀ (d src : Nibble) (s : State),
    (8 ≤ d.toNat →
      exec (.movRegReg d src) s = .fault (.unknownRegister s.regs.ir { index := d, field := .dest }) ∧
      exec (.subRegReg d src) s = .fault (.unknownRegister s.regs.ir { index := d, field := .dest })) ∧
    (d.toNat < 8 → 8 ≤ src.toNat →
      exec (.movRegReg d src) s = .fault (.unknownRegister s.regs.ir { index := src, field := .src }) ∧
      exec (.subRegReg d src) s = .fault (.unknownRegister s.regs.ir { index := src, field := .src }))

/-- Execution raises the per-step signal exactly when the instruction's destination is IR, whatever the value written
(10_state.md R28). -/
def Obligations.SignalRaisedExactlyByIrWrites : Prop :=
  ∀ (i : Instr) (s t : State), exec i { s with irWritten := false } = .next t →
    (t.irWritten = true ↔ i.destination = some .ir)

/-! ### The step -/

/-- A step of a running core is `exec` of the decoded word, with the signal cleared before it, then the event of an
implemented opcode, and the IR advance unless the signal is raised; an error is the step's own (40_cycle.md R65). That
the signal reads false after the step is the model's choice, since R28 gives it no value there and R65 does not clear it:
notes/assumptions/7.md. The refusal is the model's own outcome, which no instruction answers. -/
def Obligations.StepRunsTheDecodedInstruction : Prop :=
  ∀ (s : State) (w : Word), Running s → s.mem.cellAt s.regs.ir.toNat = w →
    (decode w).wf = true ∧
    step s =
      match exec (decode w) { s with irWritten := false } with
      | .next t => .next
        { regs := if t.irWritten then t.regs else { t.regs with ir := t.regs.ir + 1 }
          mem := t.mem
          irWritten := false
          events := t.events ++
            match lookupOpcode (opcodeOf w) with
            | some m => [.executed (opcodeOf w) (argumentOf w) m]
            | none => [] }
      | .fault f => .fault f
      | .refused r => .refused r

/-- A step of a halted core emits its event, changes no register and no cell, and returns Halted; `run()` returns Halted
after it (40_cycle.md R66, R76). -/
def Obligations.HaltedStepIsNoOp : Prop :=
  ∀ s : State, s.mem.size ≤ s.regs.ir.toNat →
    step s = .next { s with events := s.events ++ [.halted s.regs.ir] } ∧
    stepCall s = (.ok .halted, { s with events := s.events ++ [.halted s.regs.ir] }) ∧
    ∀ n : Nat, runCall (n + 1) s = (.ok (some .halted), { s with events := s.events ++ [.halted s.regs.ir] })

/-- A step at a word `0x02ii`, `0x03ii`, `0x04ii` or `0x05ii`: the whole state after it (41_move.md R79 to R82). That the
signal reads false after the step is the model's choice and no rule's: notes/assumptions/7.md. -/
def Obligations.StepOfImmediateMoves : Prop :=
  ∀ (s : State) (imm : Byte), Running s →
    (s.mem.cellAt s.regs.ir.toNat = 0x0200#16 ||| imm.setWidth 16 →
      stepCall s = (.ok .continued,
        { s with regs := { s.regs with a := imm.setWidth 16, ir := s.regs.ir + 1 }, irWritten := false,
                 events := s.events ++ [.executed 0x02 imm .movAImm] })) ∧
    (s.mem.cellAt s.regs.ir.toNat = 0x0300#16 ||| imm.setWidth 16 →
      stepCall s = (.ok .continued,
        { s with regs := { s.regs with b := imm.setWidth 16, ir := s.regs.ir + 1 }, irWritten := false,
                 events := s.events ++ [.executed 0x03 imm .movBImm] })) ∧
    (s.mem.cellAt s.regs.ir.toNat = 0x0400#16 ||| imm.setWidth 16 →
      stepCall s = (.ok .continued,
        { s with regs := { s.regs with c := imm.setWidth 16, ir := s.regs.ir + 1 }, irWritten := false,
                 events := s.events ++ [.executed 0x04 imm .movCImm] })) ∧
    (s.mem.cellAt s.regs.ir.toNat = 0x0500#16 ||| imm.setWidth 16 →
      stepCall s = (.ok .continued,
        { s with regs := { s.regs with d := imm.setWidth 16, ir := s.regs.ir + 1 }, irWritten := false,
                 events := s.events ++ [.executed 0x05 imm .movDImm] }))

/-- A step at a word `0x06ds`: the copy, the jump when the destination is IR, the error of an invalid index, and the
endless loop of `MOV IR,IR` (41_move.md R83). That the signal reads false after the step is the model's choice and no
rule's: notes/assumptions/7.md. Which nibble the error names is InvalidIndexRaisesError. -/
def Obligations.StepOfMoveRegister : Prop :=
  ∀ (s : State) (d src : Nibble), Running s →
    s.mem.cellAt s.regs.ir.toNat = 0x0600#16 ||| (d.setWidth 16 <<< 4) ||| src.setWidth 16 →
    (∀ rd rs : Reg, d = regIndex rd → src = regIndex rs → ∃ t, stepCall s = (.ok .continued, t) ∧
      t.regs.get rd = s.regs.get rs ∧ t.regs.ir = (if rd = .ir then s.regs.get rs else s.regs.ir + 1) ∧
      (∀ q : Reg, q ≠ rd → q ≠ .ir → t.regs.get q = s.regs.get q) ∧ t.mem = s.mem ∧ t.irWritten = false ∧
      t.events = s.events ++ [.executed 0x06 (d ++ src) .movRegReg]) ∧
    (8 ≤ d.toNat ∨ 8 ≤ src.toNat → ∃ info,
      stepCall s = (.ok (.error { address := s.regs.ir, cause := .unknownRegister, info := info }), s)) ∧
    (d = 5#4 → src = 5#4 → ∀ n : Nat, (runCall n s).1 = .ok none)

/-- A step at a word `0x1Aii`: the whole state after it, CA and Z untouched (42_subtract.md R86). That the signal reads
false after the step is the model's choice and no rule's: notes/assumptions/7.md. -/
def Obligations.StepOfSubtractImmediate : Prop :=
  ∀ (s : State) (imm : Byte), Running s →
    s.mem.cellAt s.regs.ir.toNat = 0x1A00#16 ||| imm.setWidth 16 → ∃ v : Word,
      (v.toNat : Int) = ((s.regs.a.toNat : Int) - (imm.toNat : Int)) % 65536 ∧
      stepCall s = (.ok .continued,
        { s with regs := { s.regs with a := v, ir := s.regs.ir + 1 }, irWritten := false,
                 events := s.events ++ [.executed 0x1A imm .subAImm] })

/-- A step at a word `0x1Bds`: the wrapped difference of the old values, the jump when the destination is IR, the error
of an invalid index, and the endless loop of `SUB IR,rs` with `x[rs] = 0` (42_subtract.md R87). That the signal reads
false after the step is the model's choice and no rule's: notes/assumptions/7.md. Which nibble the error names is
InvalidIndexRaisesError. -/
def Obligations.StepOfSubtractRegister : Prop :=
  ∀ (s : State) (d src : Nibble), Running s →
    s.mem.cellAt s.regs.ir.toNat = 0x1B00#16 ||| (d.setWidth 16 <<< 4) ||| src.setWidth 16 →
    (∀ rd rs : Reg, d = regIndex rd → src = regIndex rs → ∃ t, stepCall s = (.ok .continued, t) ∧
      ((t.regs.get rd).toNat : Int) = (((s.regs.get rd).toNat : Int) - ((s.regs.get rs).toNat : Int)) % 65536 ∧
      (rd ≠ .ir → t.regs.ir = s.regs.ir + 1) ∧
      (∀ q : Reg, q ≠ rd → q ≠ .ir → t.regs.get q = s.regs.get q) ∧ t.mem = s.mem ∧ t.irWritten = false ∧
      t.events = s.events ++ [.executed 0x1B (d ++ src) .subRegReg]) ∧
    (8 ≤ d.toNat ∨ 8 ≤ src.toNat → ∃ info,
      stepCall s = (.ok (.error { address := s.regs.ir, cause := .unknownRegister, info := info }), s)) ∧
    (∀ rs : Reg, d = 5#4 → src = regIndex rs → s.regs.get rs = 0 → ∀ n : Nat, (runCall n s).1 = .ok none)

/-- A step at a word whose opcode is none of the seven: the diagnostic, the IR advance and nothing else (40_cycle.md
R70). That the signal reads false after the step is the model's choice and no rule's: notes/assumptions/7.md. -/
def Obligations.StepOfUnimplementedOpcode : Prop :=
  ∀ (s : State) (op arg : Byte), Running s → s.mem.cellAt s.regs.ir.toNat = op ++ arg →
    op ∉ [0x02#8, 0x03#8, 0x04#8, 0x05#8, 0x06#8, 0x1A#8, 0x1B#8] →
      stepCall s = (.ok .continued,
        { s with regs := { s.regs with ir := s.regs.ir + 1 }, irWritten := false,
                 events := s.events ++ [.unimplemented op] })

/-- An error ends the step with no state change and no event, `step()` and `run()` return its record, and every later
step repeats it (60_exceptions.md R97, R99). -/
def Obligations.ErrorIsPreciseAndRepeats : Prop :=
  ∀ (s : State) (f : Fault), step s = .fault f →
    stepCall s = (.ok (.error f.record), s) ∧ f.record.address = s.regs.ir ∧ f.record.cause = .unknownRegister ∧
    (∀ n : Nat, runCall (n + 1) s = (.ok (some (.error f.record)), s)) ∧
    ∀ n : Nat, session (List.replicate n .step) s = s

/-- A step never refuses, and it raises an error exactly when the core runs and the word is a register-register
instruction with a nibble of 8 or more, which the record names (60_exceptions.md R94, R96). -/
def Obligations.StepFaultsExactlyOnInvalidIndex : Prop :=
  ∀ s : State, (∀ r, step s ≠ .refused r) ∧
    ((∃ f, step s = .fault f) ↔ Running s ∧ (decode (fetchWord s)).namesRegisters = false) ∧
    ∀ f, step s = .fault f → 8 ≤ f.record.info.index.toNat

/-- No instruction reads or writes memory as data: two cores that agree in everything but memory words other than the
one fetched make the same step, and neither changes its memory (20_memory.md R38). -/
def Obligations.StepReadsOnlyTheFetchedWord : Prop :=
  ∀ s s' : State, s.regs = s'.regs → s.mem.size = s'.mem.size → s.irWritten = s'.irWritten → s.events = s'.events →
    (Running s → fetchWord s = fetchWord s') →
    (stepCall s).1 = (stepCall s').1 ∧ (stepCall s).2.regs = (stepCall s').2.regs ∧
    (stepCall s).2.irWritten = (stepCall s').2.irWritten ∧ (stepCall s).2.events = (stepCall s').2.events ∧
    (stepCall s).2.mem = s.mem ∧ (stepCall s').2.mem = s'.mem

/-- A register other than IR changes only when the instruction names it as its destination, and CA, Z and LR only through
an explicit index (10_state.md R17, R22). -/
def Obligations.OnlyTheDestinationChanges : Prop :=
  ∀ (s t : State) (r : Reg), step s = .next t → r ≠ .ir → t.regs.get r ≠ s.regs.get r →
    Running s ∧ (decode (fetchWord s)).destination = some r ∧
    (r = .ca ∨ r = .z ∨ r = .lr → ∃ src : Nibble,
      decode (fetchWord s) = .movRegReg (regIndex r) src ∨ decode (fetchWord s) = .subRegReg (regIndex r) src)

/-- The IR advance of a completed instruction: IR +16 1, wrapping, unless the instruction wrote IR, and then the value
written (40_cycle.md R72). -/
def Obligations.IrAdvancesUnlessWritten : Prop :=
  ∀ s t : State, Running s → step s = .next t →
    ((decode (fetchWord s)).destination ≠ some .ir → t.regs.ir.toNat = (s.regs.ir.toNat + 1) % 65536) ∧
    ((decode (fetchWord s)).destination = some .ir → ∀ u, exec (decode (fetchWord s)) { s with irWritten := false } = .next u →
      t.regs.ir = u.regs.ir)

/-- Which event each step emits: one on a halted step and on every completed instruction, none on an error; and that what
has been emitted influences neither outcome, registers nor memory (40_cycle.md R74). -/
def Obligations.OneEventPerStep : Prop :=
  ∀ s : State,
    ((stepCall s).1 = .ok .halted → (stepCall s).2.events = s.events ++ [.halted s.regs.ir]) ∧
    ((stepCall s).1 = .ok .continued →
      (∀ m : Mnemonic, m.opcode = opcodeOf (fetchWord s) → (stepCall s).2.events =
        s.events ++ [.executed (opcodeOf (fetchWord s)) (argumentOf (fetchWord s)) m]) ∧
      ((∀ m : Mnemonic, m.opcode ≠ opcodeOf (fetchWord s)) →
        (stepCall s).2.events = s.events ++ [.unimplemented (opcodeOf (fetchWord s))])) ∧
    (∀ record, (stepCall s).1 = .ok (.error record) → (stepCall s).2.events = s.events) ∧
    (∀ es : List Event, (stepCall { s with events := es }).1 = (stepCall s).1 ∧
      (stepCall { s with events := es }).2.regs = (stepCall s).2.regs ∧
      (stepCall { s with events := es }).2.mem = (stepCall s).2.mem)

/-- Every step keeps the model's invariant: the memory's canonical form, and a per-step signal that holds nothing between
steps (10_state.md R28, 20_memory.md R38). The form and the value false are the model's choice: notes/assumptions/1.md,
notes/assumptions/7.md. -/
def Obligations.StepKeepsTheInvariant : Prop :=
  ∀ s t : State, s.Inv → step s = .next t → t.Inv

/-! ### Runs and sessions -/

/-- Every session of the host keeps the model's invariant and the capacity of construction (20_memory.md R32, R47;
10_state.md R28). The memory's canonical form and the signal's value false between steps are the model's choice:
notes/assumptions/1.md, notes/assumptions/7.md. -/
def Obligations.SessionsKeepInvariantAndCapacity : Prop :=
  ∀ (xs : List Transaction) (s : State), s.Inv → (session xs s).Inv ∧ (session xs s).mem.size = s.mem.size

/-- `run()` stops at the first Halted or Error and keeps its result: more fuel changes neither outcome nor state, and
Halted is answered only with IR out of bounds (40_cycle.md R75). -/
def Obligations.RunResultIsStable : Prop :=
  ∀ (n k : Nat) (s t : State) (o : RunOutcome), runCall n s = (.ok (some o), t) →
    runCall (n + k) s = (.ok (some o), t) ∧ (o = .halted → t.mem.size ≤ t.regs.ir.toNat)

/-- A halted core leaves Halted exactly by a host `set_register(IR, v)` with `v < MEM_SIZE`; a step changes no register
and no cell of it (60_exceptions.md R108, 10_state.md R24). -/
def Obligations.OnlyTheHostLeavesHalted : Prop :=
  ∀ (s : State) (x : Transaction), s.mem.size ≤ s.regs.ir.toNat →
    (Running (transact x s).2 ↔ ∃ v : Word, x = .setRegister "IR" v ∧ v.toNat < s.mem.size) ∧
    (transact .step s).2.regs = s.regs ∧ (transact .step s).2.mem = s.mem

/-- With 65536 cells or more no run is ever Halted (20_memory.md R43, 70_reset_and_hazards.md R116). -/
def Obligations.FullRangeMemoryNeverHalts : Prop :=
  ∀ s : State, 65536 ≤ s.mem.size → ∀ n : Nat, (runCall n s).1 ≠ .ok (some .halted)

/-- `MOV IR,rs` with its own address in `x[rs]`, and `SUB IR,rs` with `x[rs] = 0`, run for ever with registers and
memory unchanged (70_reset_and_hazards.md R116). -/
def Obligations.SelfJumpsNeverHalt : Prop :=
  ∀ (s : State) (rs : Reg), Running s →
    (decode (fetchWord s) = .movRegReg (regIndex .ir) (regIndex rs) ∧ s.regs.get rs = s.regs.ir) ∨
    (decode (fetchWord s) = .subRegReg (regIndex .ir) (regIndex rs) ∧ s.regs.get rs = 0) →
    ∀ n : Nat, ∃ t, runCall n s = (.ok none, t) ∧ t.regs = s.regs ∧ t.mem = s.mem

/-- A memory of `n` zero cells, with `n` below 65536, is skipped word by word, and `run()` halts with IR = `n`
(40_cycle.md R70, R73; 20_memory.md R33). -/
def Obligations.ZeroMemoryRunsToItsEnd : Prop :=
  ∀ n : Nat, n < 65536 → ∃ t, runCall (n + 1) (construct (.size n)) = (.ok (some .halted), t) ∧
    t.regs = { (construct (.size n)).regs with ir := BitVec.ofNat 16 n } ∧ t.mem = (construct (.size n)).mem

/-- Safety: when no reachable word of the memory is a register-register instruction with a nibble of 8 or more, no run
of any length raises an error, from any registers (60_exceptions.md R90, R94; 20_memory.md R38, R43). -/
def Obligations.MemoryOfValidIndicesIsSafe : Prop :=
  ∀ s : State,
    (∀ i : Nat, i < s.mem.size → i < 65536 → (decode (s.mem.cellAt i)).namesRegisters = true) →
    ∀ k : Nat, SafeFor k s

/-- The spec's numbers for causes and outcomes (60_exceptions.md R93, R94). -/
def Obligations.CodesOfCausesAndOutcomes : Prop :=
  Cause.unknownRegister.code = 1 ∧ Cause.outOfBounds.code = 2 ∧ StepOutcome.continued.code = 0 ∧
  StepOutcome.halted.code = 1 ∧ ∀ record : ErrorRecord, (StepOutcome.error record).code = 2
end

