-- ==== Sys2Proof/Laws/Decode.lean ====
section
/-! SUPPORT. The fields of an assembled word, and what the dispatch table answers. -/

namespace Sys2Proof

/-- The high field of two values joined. -/
theorem extract_high {n m : Nat} (x : BitVec n) (y : BitVec m) : (x ++ y).extractLsb' m n = x := by
  ext i hi
  simp [BitVec.getLsbD_append, hi]

/-- The low field of two values joined. -/
theorem extract_low {n m : Nat} (x : BitVec n) (y : BitVec m) : (x ++ y).extractLsb' 0 m = y := by
  ext i hi
  simp [BitVec.getLsbD_append, hi]

@[simp] theorem opcodeOf_append (op arg : Byte) : opcodeOf (op ++ arg) = op := extract_high op arg

@[simp] theorem argumentOf_append (op arg : Byte) : argumentOf (op ++ arg) = arg := extract_low op arg

@[simp] theorem destOf_append (d s : Nibble) : destOf (d ++ s) = d := extract_high d s

@[simp] theorem srcOf_append (d s : Nibble) : srcOf (d ++ s) = s := extract_low d s

@[simp] theorem lookupOpcode_opcode (m : Mnemonic) : lookupOpcode m.opcode = some m := by
  cases m <;> decide

/-- What the dispatch table answers is the catalog's row of that opcode. -/
theorem opcode_of_lookupOpcode {op : Byte} {m : Mnemonic} (h : lookupOpcode op = some m) : m.opcode = op := by
  simpa using List.find?_some h

end Sys2Proof
end

