-- ==== Sys2Proof/Laws/State.lean ====
section
/-! SUPPORT. One lemma per field per update of `State`, true by rfl, so that no later proof unfolds a record update. -/

namespace Sys2Proof.Machine

variable (s : State) (r : Reg) (v : Word) (e : Event)

@[simp] theorem writeReg_regs : (writeReg r v s).regs = s.regs.set r v := rfl
@[simp] theorem writeReg_mem : (writeReg r v s).mem = s.mem := rfl
@[simp] theorem writeReg_irWritten : (writeReg r v s).irWritten = (s.irWritten || r == .ir) := rfl
@[simp] theorem writeReg_events : (writeReg r v s).events = s.events := rfl

@[simp] theorem emit_regs : (emit e s).regs = s.regs := rfl
@[simp] theorem emit_mem : (emit e s).mem = s.mem := rfl
@[simp] theorem emit_irWritten : (emit e s).irWritten = s.irWritten := rfl
@[simp] theorem emit_events : (emit e s).events = s.events ++ [e] := rfl

@[simp] theorem haltedStep_regs : (haltedStep s).regs = s.regs := rfl
@[simp] theorem haltedStep_mem : (haltedStep s).mem = s.mem := rfl
@[simp] theorem haltedStep_irWritten : (haltedStep s).irWritten = s.irWritten := rfl
@[simp] theorem haltedStep_events : (haltedStep s).events = s.events ++ [.halted (ip s)] := rfl

@[simp] theorem beginExecute_regs : (beginExecute s).regs = s.regs := rfl
@[simp] theorem beginExecute_mem : (beginExecute s).mem = s.mem := rfl
@[simp] theorem beginExecute_irWritten : (beginExecute s).irWritten = false := rfl
@[simp] theorem beginExecute_events : (beginExecute s).events = s.events := rfl

@[simp] theorem endStep_regs : (endStep s).regs = s.regs := rfl
@[simp] theorem endStep_mem : (endStep s).mem = s.mem := rfl
@[simp] theorem endStep_irWritten : (endStep s).irWritten = false := rfl
@[simp] theorem endStep_events : (endStep s).events = s.events := rfl

@[simp] theorem readReg_eq : readReg r s = s.regs.get r := rfl
@[simp] theorem ip_eq : ip s = s.regs.ir := rfl
@[simp] theorem get_ir (f : RegFile) : f.get .ir = f.ir := rfl

end Sys2Proof.Machine
end

