-- ==== Sys2Proof/Laws/Memory.lean ====
section
/-! SUPPORT. The memory's cells: a read after a write, and that every memory operation keeps the canonical form. -/

namespace Sys2Proof.Machine

/-- The canonical form of a list with a first cell. -/
theorem cellsWf_cons_iff {lo size : Nat} {c : WordCell} {rest : List WordCell} :
    cellsWf lo size (c :: rest) = true ↔
      lo ≤ c.1 ∧ c.1 < size ∧ c.2 ≠ 0 ∧ cellsWf (c.1 + 1) size rest = true := by
  obtain ⟨i, v⟩ := c
  simp only [cellsWf, Bool.and_eq_true, decide_eq_true_eq, bne_iff_ne, and_assoc]

@[simp] theorem lookupCell_cons (c : WordCell) (rest : List WordCell) (i : Nat) :
    lookupCell (c :: rest) i = if i = c.1 then c.2 else lookupCell rest i := rfl

/-- A canonical list may be read as one that starts lower. -/
theorem cellsWf_mono {lo lo' size : Nat} {l : List WordCell} (hle : lo ≤ lo') (h : cellsWf lo' size l = true) :
    cellsWf lo size l = true := by
  cases l with
  | nil => rfl
  | cons c rest =>
    obtain ⟨h1, h2⟩ := cellsWf_cons_iff.mp h
    exact cellsWf_cons_iff.mpr ⟨by omega, h2⟩

/-- A canonical list stays canonical when the capacity grows. -/
theorem cellsWf_grow {lo size size' : Nat} {l : List WordCell} (hle : size ≤ size') (h : cellsWf lo size l = true) :
    cellsWf lo size' l = true := by
  induction l generalizing lo with
  | nil => rfl
  | cons c rest ih =>
    obtain ⟨h1, h2, h3, h4⟩ := cellsWf_cons_iff.mp h
    exact cellsWf_cons_iff.mpr ⟨h1, by omega, h3, ih h4⟩

/-- Nothing is listed below the start of a canonical list. -/
theorem lookupCell_of_lt {lo size i : Nat} {l : List WordCell} (h : cellsWf lo size l = true) (hi : i < lo) :
    lookupCell l i = 0 := by
  induction l generalizing lo with
  | nil => rfl
  | cons c rest ih =>
    obtain ⟨h1, -, -, h4⟩ := cellsWf_cons_iff.mp h
    rw [lookupCell_cons, if_neg (by omega)]
    exact ih h4 (by omega)

/-- Nothing is listed at or above the capacity of a canonical list. -/
theorem lookupCell_of_size_le {lo size i : Nat} {l : List WordCell} (h : cellsWf lo size l = true) (hi : size ≤ i) :
    lookupCell l i = 0 := by
  induction l generalizing lo with
  | nil => rfl
  | cons c rest ih =>
    obtain ⟨-, h2, -, h4⟩ := cellsWf_cons_iff.mp h
    rw [lookupCell_cons, if_neg (by omega)]
    exact ih h4

theorem lookupCell_consCell_same {lo size i : Nat} (v : Word) {l : List WordCell} (h : cellsWf lo size l = true)
    (hi : i < lo) : lookupCell (consCell i v l) i = v := by
  unfold consCell
  split
  · next hv => rw [lookupCell_of_lt h hi, hv]
  · rw [lookupCell_cons, if_pos rfl]

theorem lookupCell_consCell_ne {i j : Nat} (v : Word) (l : List WordCell) (hne : j ≠ i) :
    lookupCell (consCell i v l) j = lookupCell l j := by
  unfold consCell
  split
  · rfl
  · rw [lookupCell_cons, if_neg hne]

theorem cellsWf_consCell {lo size i : Nat} (v : Word) {l : List WordCell} (hlo : lo ≤ i) (hsz : i < size)
    (h : cellsWf (i + 1) size l = true) : cellsWf lo size (consCell i v l) = true := by
  unfold consCell
  split
  · exact cellsWf_mono (by omega) h
  · next hv => exact cellsWf_cons_iff.mpr ⟨hlo, hsz, hv, h⟩

/-- A cell reads as what was last stored in it. -/
theorem lookupCell_storeCell_same {lo size i : Nat} (v : Word) {l : List WordCell} (h : cellsWf lo size l = true) :
    lookupCell (storeCell l i v) i = v := by
  induction l generalizing lo with
  | nil => exact lookupCell_consCell_same (lo := i + 1) (size := size) v rfl (by omega)
  | cons c rest ih =>
    obtain ⟨-, h2, h3, h4⟩ := cellsWf_cons_iff.mp h
    unfold storeCell
    split
    · next hlt =>
      exact lookupCell_consCell_same v (cellsWf_cons_iff.mpr ⟨Nat.le_refl c.1, h2, h3, h4⟩) hlt
    · split
      · exact lookupCell_consCell_same v h4 (by omega)
      · next hne => rw [lookupCell_cons, if_neg hne]; exact ih h4

/-- A store leaves every other cell alone. -/
theorem lookupCell_storeCell_ne {i j : Nat} (v : Word) (l : List WordCell) (hne : j ≠ i) :
    lookupCell (storeCell l i v) j = lookupCell l j := by
  induction l with
  | nil => exact lookupCell_consCell_ne v [] hne
  | cons c rest ih =>
    unfold storeCell
    split
    · exact lookupCell_consCell_ne v _ hne
    · split
      · rw [lookupCell_consCell_ne v _ hne, lookupCell_cons, if_neg (by omega)]
      · rw [lookupCell_cons, lookupCell_cons, ih]

/-- A store below the capacity keeps the canonical form. -/
theorem cellsWf_storeCell {lo size i : Nat} (v : Word) {l : List WordCell} (hlo : lo ≤ i) (hsz : i < size)
    (h : cellsWf lo size l = true) : cellsWf lo size (storeCell l i v) = true := by
  induction l generalizing lo with
  | nil => exact cellsWf_consCell v hlo hsz rfl
  | cons c rest ih =>
    obtain ⟨h1, h2, h3, h4⟩ := cellsWf_cons_iff.mp h
    unfold storeCell
    split
    · next hlt => exact cellsWf_consCell v hlo hsz (cellsWf_cons_iff.mpr ⟨hlt, h2, h3, h4⟩)
    · split
      · next heq => exact cellsWf_consCell v hlo hsz (by rw [heq]; exact h4)
      · exact cellsWf_cons_iff.mpr ⟨h1, h2, h3, ih (by omega) h4⟩

/-- Two canonical lists that read alike are one list: the canonical form makes equal memories equal data. -/
theorem cells_ext {lo size : Nat} {l l' : List WordCell} (h : cellsWf lo size l = true) (h' : cellsWf lo size l' = true)
    (hr : ∀ i, lookupCell l i = lookupCell l' i) : l = l' := by
  induction l generalizing lo l' with
  | nil =>
    cases l' with
    | nil => rfl
    | cons c' rest' =>
      have := hr c'.1
      rw [lookupCell_cons, if_pos rfl] at this
      exact absurd this.symm (cellsWf_cons_iff.mp h').2.2.1
  | cons c rest ih =>
    obtain ⟨-, -, h3, h4⟩ := cellsWf_cons_iff.mp h
    cases l' with
    | nil =>
      have := hr c.1
      rw [lookupCell_cons, if_pos rfl] at this
      exact absurd this h3
    | cons c' rest' =>
      obtain ⟨-, -, h3', h4'⟩ := cellsWf_cons_iff.mp h'
      have hfst : c.1 = c'.1 := by
        rcases Nat.lt_trichotomy c.1 c'.1 with hlt | heq | hgt
        · have h1 := hr c.1
          rw [lookupCell_cons, if_pos rfl, lookupCell_cons, if_neg (by omega), lookupCell_of_lt h4' (by omega)] at h1
          exact absurd h1 h3
        · exact heq
        · have h1 := hr c'.1
          rw [lookupCell_cons, if_neg (by omega), lookupCell_of_lt h4 (by omega), lookupCell_cons, if_pos rfl] at h1
          exact absurd h1.symm h3'
      have hsnd : c.2 = c'.2 := by
        have h1 := hr c.1
        rwa [lookupCell_cons, if_pos rfl, lookupCell_cons, if_pos hfst] at h1
      have hrest : rest = rest' := by
        refine ih h4 (by rw [hfst]; exact h4') (fun i => ?_)
        rcases Nat.lt_or_ge i (c.1 + 1) with hi | hi
        · rw [lookupCell_of_lt h4 hi, lookupCell_of_lt h4' (by omega)]
        · have h1 := hr i
          rwa [lookupCell_cons, if_neg (by omega), lookupCell_cons, if_neg (by omega)] at h1
      rw [hrest, Prod.ext hfst hsnd]

/-! ### The memory operations -/

@[simp] theorem withCell_size (m : Memory) (i : Nat) (v : Word) : (m.withCell i v).size = m.size := rfl

theorem cellAt_withCell_same {m : Memory} (i : Nat) (v : Word) (h : m.wf = true) : (m.withCell i v).cellAt i = v :=
  lookupCell_storeCell_same v h

theorem cellAt_withCell_ne (m : Memory) {i j : Nat} (v : Word) (hne : j ≠ i) :
    (m.withCell i v).cellAt j = m.cellAt j :=
  lookupCell_storeCell_ne v m.cells hne

theorem withCell_wf {m : Memory} {i : Nat} (v : Word) (hi : i < m.size) (h : m.wf = true) : (m.withCell i v).wf = true :=
  cellsWf_storeCell v (Nat.zero_le _) hi h

theorem memory_write_wf {m m' : Memory} {i : Nat} {v : Word} (h : m.wf = true) (hw : m.write i v = some m') :
    m'.wf = true := by
  unfold Memory.write at hw
  split at hw
  · next hi => cases hw; exact withCell_wf v hi h
  · cases hw

theorem growTo_size (m : Memory) (n : Nat) : (m.growTo n).size = max m.size n := by
  simp only [Memory.growTo]; omega

theorem growTo_wf {m : Memory} (n : Nat) (h : m.wf = true) : (m.growTo n).wf = true :=
  cellsWf_grow (show m.size ≤ (m.size - n) + n by omega) h

theorem new_wf (n : Nat) : (Memory.new n).wf = true := rfl

theorem cellsFrom_wf (ws : List Word) (i : Nat) : cellsWf i (i + ws.length) (cellsFrom i ws) = true := by
  induction ws generalizing i with
  | nil => rfl
  | cons w ws ih =>
    refine cellsWf_consCell w (Nat.le_refl _) (by simp) ?_
    have := ih (i + 1)
    rwa [show i + 1 + ws.length = i + (w :: ws).length by simp; omega] at this

theorem ofWords_wf (ws : List Word) : (Memory.ofWords ws).wf = true := by
  simpa [Memory.wf, Memory.ofWords] using cellsFrom_wf ws 0

theorem construction_memory_wf (c : Construction) : c.memory.wf = true := by
  cases c with
  | size n => exact new_wf n
  | words ws => exact ofWords_wf ws
  | default => exact new_wf _

theorem reset_memory_wf : State.reset.mem.wf = true := rfl

theorem placeFetchWords_mem_wf (ws : List Word) {s : State} (h : s.mem.wf = true) : (placeFetchWords ws s).mem.wf = true := by
  cases ws with
  | nil => exact h
  | cons w rest => exact withCell_wf w (by simp only [Memory.growTo, ip_eq]; omega) (growTo_wf _ h)

end Sys2Proof.Machine
end

