-- ==== Sys2Proof/Laws/PerInstr.lean ====
section
/-! SUPPORT. Statements about every instruction as syntax, one lemma per constructor. -/

/-- The encoder puts the opcode in the high byte and the argument in the low byte (30_encoding.md R64). -/
def Sys2Proof.Laws.EncodeFields.Statement (i : Sys2Proof.Instr) : Prop :=
  Sys2Proof.opcodeOf (Sys2Proof.encode i) = i.fields.1 ∧ Sys2Proof.argumentOf (Sys2Proof.encode i) = i.fields.2

namespace Sys2Proof.Laws

theorem EncodeFields.movAImm (imm : Byte) : EncodeFields.Statement (.movAImm imm) :=
  ⟨opcodeOf_append _ _, argumentOf_append _ _⟩

theorem EncodeFields.movBImm (imm : Byte) : EncodeFields.Statement (.movBImm imm) :=
  ⟨opcodeOf_append _ _, argumentOf_append _ _⟩

theorem EncodeFields.movCImm (imm : Byte) : EncodeFields.Statement (.movCImm imm) :=
  ⟨opcodeOf_append _ _, argumentOf_append _ _⟩

theorem EncodeFields.movDImm (imm : Byte) : EncodeFields.Statement (.movDImm imm) :=
  ⟨opcodeOf_append _ _, argumentOf_append _ _⟩

theorem EncodeFields.movRegReg (d s : Nibble) : EncodeFields.Statement (.movRegReg d s) :=
  ⟨opcodeOf_append _ _, argumentOf_append _ _⟩

theorem EncodeFields.subAImm (imm : Byte) : EncodeFields.Statement (.subAImm imm) :=
  ⟨opcodeOf_append _ _, argumentOf_append _ _⟩

theorem EncodeFields.subRegReg (d s : Nibble) : EncodeFields.Statement (.subRegReg d s) :=
  ⟨opcodeOf_append _ _, argumentOf_append _ _⟩

theorem EncodeFields.unimplemented (opcode argument : Byte) : EncodeFields.Statement (.unimplemented opcode argument) :=
  ⟨opcodeOf_append _ _, argumentOf_append _ _⟩

end Sys2Proof.Laws
end

