-- ==== Sys2Proof/Laws/Registers.lean ====
section
/-! SUPPORT. The register file as eight independent cells, and what the two ways of naming a register answer. -/

namespace Sys2Proof.Machine

@[simp] theorem get_set_same (f : RegFile) (r : Reg) (v : Word) : (f.set r v).get r = v := by
  cases r <;> rfl

@[simp] theorem get_set_of_ne (f : RegFile) {r q : Reg} (v : Word) (h : q ≠ r) :
    (f.set r v).get q = f.get q := by
  cases r <;> cases q <;> first | rfl | exact absurd rfl h

@[simp] theorem set_ir_same (f : RegFile) (v : Word) : (f.set .ir v).ir = v := rfl

theorem set_ir_of_ne (f : RegFile) {r : Reg} (v : Word) (h : r ≠ .ir) : (f.set r v).ir = f.ir :=
  get_set_of_ne f v (Ne.symm h)

/-- A register file is its eight values: two that agree at every register are equal. -/
theorem regFile_ext_get {f g : RegFile} (h : ∀ r, f.get r = g.get r) : f = g := by
  have ha := h .a; have hb := h .b; have hc := h .c; have hd := h .d
  have hca := h .ca; have hir := h .ir; have hz := h .z; have hlr := h .lr
  cases f; cases g
  simp only [RegFile.get] at *
  simp only [*]

@[simp] theorem regOfIndex_regIndex (r : Reg) : regOfIndex (regIndex r) = some r := by
  cases r <;> rfl

/-- The nibbles 0 to 7 name a register and the nibbles 8 to 15 name none. -/
theorem regOfIndex_eq_none_iff (n : Nibble) : regOfIndex n = none ↔ 8 ≤ n.toNat := by
  simp [regOfIndex, allRegs]

theorem regOfIndex_eq_some_iff (n : Nibble) (r : Reg) : regOfIndex n = some r ↔ n = regIndex r := by
  cases r <;> revert n <;> decide

@[simp] theorem regOfName_regName (r : Reg) : regOfName (regName r) = some r := by
  cases r <;> rfl

theorem regOfName_eq_some_iff (name : String) (r : Reg) : regOfName name = some r ↔ name = regName r := by
  constructor
  · intro h
    have := List.find?_some h
    simpa using (beq_iff_eq.mp this).symm
  · rintro rfl
    exact regOfName_regName r

/-- Everything `resolve` can answer: both registers, or the first invalid nibble, the destination first. -/
theorem resolve_cases (d src : Nibble) :
    (∃ rd rs, d = regIndex rd ∧ src = regIndex rs ∧ resolve d src = .ok (rd, rs)) ∨
    (8 ≤ d.toNat ∧ resolve d src = .error { index := d, field := .dest }) ∨
    (d.toNat < 8 ∧ 8 ≤ src.toNat ∧ resolve d src = .error { index := src, field := .src }) := by
  unfold resolve
  cases hd : regOfIndex d with
  | none => exact .inr (.inl ⟨(regOfIndex_eq_none_iff d).mp hd, rfl⟩)
  | some rd =>
    have hlt : d.toNat < 8 := by
      by_contra hge
      rw [(regOfIndex_eq_none_iff d).mpr (by omega)] at hd
      cases hd
    cases hs : regOfIndex src with
    | none => exact .inr (.inr ⟨hlt, (regOfIndex_eq_none_iff src).mp hs, rfl⟩)
    | some rs =>
      exact .inl ⟨rd, rs, (regOfIndex_eq_some_iff d rd).mp hd, (regOfIndex_eq_some_iff src rs).mp hs, rfl⟩

@[simp] theorem resolve_regIndex (rd rs : Reg) : resolve (regIndex rd) (regIndex rs) = .ok (rd, rs) := by
  simp [resolve]

end Sys2Proof.Machine
end

