-- ==== Sys2Proof/Laws/Session.lean ====
section
/-! SUPPORT. What each transaction on the host's ports can do, said once. -/

namespace Sys2Proof.Machine

variable {s : State}

theorem transact_getRegister_of_some {name : String} {r : Reg} (h : regOfName name = some r) :
    transact (.getRegister name) s = (.value (s.regs.get r), s) := by
  simp [transact, getRegister, h]

theorem transact_getRegister_of_none {name : String} (h : regOfName name = none) :
    transact (.getRegister name) s = (.failed .unknownRegister, s) := by
  simp [transact, getRegister, h]

theorem transact_setRegister_of_some {name : String} {r : Reg} (v : Word) (h : regOfName name = some r) :
    transact (.setRegister name v) s = (.ok, { s with regs := s.regs.set r v }) := by
  simp [transact, setRegister, h]

theorem transact_setRegister_of_none {name : String} (v : Word) (h : regOfName name = none) :
    transact (.setRegister name v) s = (.failed .unknownRegister, s) := by
  simp [transact, setRegister, h]

theorem transact_read_of_lt {i : Nat} (h : i < s.mem.size) :
    transact (.read i) s = (.value (s.mem.cellAt i), s) := by
  simp [transact, hostRead, Memory.read, h]

theorem transact_read_of_le {i : Nat} (h : s.mem.size ≤ i) :
    transact (.read i) s = (.failed .outOfBounds, s) := by
  simp [transact, hostRead, Memory.read, Nat.not_lt.mpr h]

theorem transact_write_of_lt {i : Nat} (v : Word) (h : i < s.mem.size) :
    transact (.write i v) s = (.ok, { s with mem := s.mem.withCell i v }) := by
  simp [transact, hostWrite, Memory.write, h]

theorem transact_write_of_le {i : Nat} (v : Word) (h : s.mem.size ≤ i) :
    transact (.write i v) s = (.failed .outOfBounds, s) := by
  simp [transact, hostWrite, Memory.write, Nat.not_lt.mpr h]

/-- A `step()` or a `run()` leaves the state that `stepCall` or `runCall` leaves. -/
theorem transact_step_state : (transact .step s).2 = (stepCall s).2 := by
  rcases h : stepCall s with ⟨o, t⟩
  cases o <;> simp [transact, h]

theorem transact_run_state (n : Nat) : (transact (.run n) s).2 = (runCall n s).2 := by
  rcases h : runCall n s with ⟨o, t⟩
  cases o <;> simp [transact, h]

end Sys2Proof.Machine
end

