-- ==== Sys2Proof/Laws/Step.lean ====
section
/-! SUPPORT. What each part of the step can do, said once: `exec`, the IR advance, the completion, the step itself. -/

namespace Sys2Proof.Machine

theorem halted_eq_true_iff (s : State) : halted s = true ↔ s.mem.size ≤ s.regs.ir.toNat :=
  decide_eq_true_iff

theorem halted_eq_false_iff (s : State) : halted s = false ↔ s.regs.ir.toNat < s.mem.size :=
  decide_eq_false_iff_not.trans Nat.not_le

/-- Everything the IR advance can do: nothing when the instruction wrote IR, else IR +16 1. -/
theorem advanceIr_cases (s : State) :
    (s.irWritten = true ∧ advanceIr s = s) ∨
    (s.irWritten = false ∧ advanceIr s = { s with regs := s.regs.set .ir (s.regs.ir + 1#16) }) := by
  unfold advanceIr
  cases h : s.irWritten with
  | true => exact .inl ⟨rfl, if_pos rfl⟩
  | false => exact .inr ⟨rfl, if_neg (by decide)⟩

/-- Everything `emitExecuted` can do: the event of an implemented opcode, or nothing. -/
theorem emitExecuted_cases (w : Word) (s : State) :
    (∃ m, lookupOpcode (opcodeOf w) = some m ∧
      emitExecuted w s = emit (.executed (opcodeOf w) (argumentOf w) m) s) ∨
    (lookupOpcode (opcodeOf w) = none ∧ emitExecuted w s = s) := by
  unfold emitExecuted
  cases h : lookupOpcode (opcodeOf w) with
  | none => exact .inr ⟨rfl, rfl⟩
  | some m => exact .inl ⟨m, rfl, rfl⟩

@[simp] theorem emitExecuted_regs (w : Word) (s : State) : (emitExecuted w s).regs = s.regs := by
  rcases emitExecuted_cases w s with ⟨m, -, h⟩ | ⟨-, h⟩ <;> rw [h]; rfl

@[simp] theorem emitExecuted_mem (w : Word) (s : State) : (emitExecuted w s).mem = s.mem := by
  rcases emitExecuted_cases w s with ⟨m, -, h⟩ | ⟨-, h⟩ <;> rw [h]; rfl

@[simp] theorem emitExecuted_irWritten (w : Word) (s : State) : (emitExecuted w s).irWritten = s.irWritten := by
  rcases emitExecuted_cases w s with ⟨m, -, h⟩ | ⟨-, h⟩ <;> rw [h]; rfl

@[simp] theorem advanceIr_mem (s : State) : (advanceIr s).mem = s.mem := by
  rcases advanceIr_cases s with ⟨-, h⟩ | ⟨-, h⟩ <;> rw [h]

@[simp] theorem advanceIr_events (s : State) : (advanceIr s).events = s.events := by
  rcases advanceIr_cases s with ⟨-, h⟩ | ⟨-, h⟩ <;> rw [h]

@[simp] theorem completeStep_mem (w : Word) (s : State) : (completeStep w s).mem = s.mem := by
  simp [completeStep]

@[simp] theorem completeStep_irWritten (w : Word) (s : State) : (completeStep w s).irWritten = false := rfl

@[simp] theorem completeStep_events (w : Word) (s : State) :
    (completeStep w s).events = (emitExecuted w s).events := by
  simp [completeStep]

/-- The registers after the completion: IR advanced unless the instruction wrote it, the others as they were. -/
theorem completeStep_regs (w : Word) (s : State) :
    (completeStep w s).regs = if s.irWritten then s.regs else s.regs.set .ir (s.regs.ir + 1#16) := by
  rcases advanceIr_cases (emitExecuted w s) with ⟨hw, h⟩ | ⟨hw, h⟩ <;>
    · rw [emitExecuted_irWritten] at hw
      simp [completeStep, h, hw]

/-- Everything `exec` can do: write one register, emit the unimplemented diagnostic, or raise the error of an invalid
index. It never refuses. -/
theorem exec_cases (i : Instr) (s : State) :
    (∃ rd v, exec i s = .next (writeReg rd v s)) ∨
    (∃ op arg, i = .unimplemented op arg ∧ exec i s = .next (emit (.unimplemented op) s)) ∨
    (∃ d src info, (i = .movRegReg d src ∨ i = .subRegReg d src) ∧ resolve d src = .error info ∧
      exec i s = .fault (.unknownRegister s.regs.ir info)) := by
  cases i with
  | movAImm imm => exact .inl ⟨.a, _, rfl⟩
  | movBImm imm => exact .inl ⟨.b, _, rfl⟩
  | movCImm imm => exact .inl ⟨.c, _, rfl⟩
  | movDImm imm => exact .inl ⟨.d, _, rfl⟩
  | subAImm imm => exact .inl ⟨.a, _, rfl⟩
  | unimplemented op arg => exact .inr (.inl ⟨op, arg, rfl, rfl⟩)
  | movRegReg d src =>
    cases h : resolve d src with
    | error info => exact .inr (.inr ⟨d, src, info, .inl rfl, h, by simp [exec, execMovRegReg, h, raiseUnknownRegister]⟩)
    | ok p => exact .inl ⟨p.1, s.regs.get p.2, by simp [exec, execMovRegReg, h]⟩
  | subRegReg d src =>
    cases h : resolve d src with
    | error info => exact .inr (.inr ⟨d, src, info, .inr rfl, h, by simp [exec, execSubRegReg, h, raiseUnknownRegister]⟩)
    | ok p => exact .inl ⟨p.1, sub16 (s.regs.get p.1) (s.regs.get p.2), by simp [exec, execSubRegReg, h]⟩

/-- A halted step, and what a running step makes of each outcome of `exec`. -/
theorem step_of_halted {s : State} (h : halted s = true) : step s = .next (haltedStep s) := by
  simp [step, h]

theorem step_of_exec_next {s t : State} (h : halted s = false)
    (he : exec (decode (fetchWord s)) (beginExecute s) = .next t) : step s = .next (completeStep (fetchWord s) t) := by
  simp [step, h, he]

theorem step_of_exec_fault {s : State} {f : Fault} (h : halted s = false)
    (he : exec (decode (fetchWord s)) (beginExecute s) = .fault f) : step s = .fault f := by
  simp [step, h, he]

/-- Everything a step can do: the halted no-op, the completion of one register write, the completion of the
unimplemented diagnostic, or the error of an invalid index. It never refuses. -/
theorem step_cases (s : State) :
    (halted s = true ∧ step s = .next (haltedStep s)) ∨
    (halted s = false ∧ ∃ rd v, exec (decode (fetchWord s)) (beginExecute s) = .next (writeReg rd v (beginExecute s)) ∧
      step s = .next (completeStep (fetchWord s) (writeReg rd v (beginExecute s)))) ∨
    (halted s = false ∧ ∃ op arg, decode (fetchWord s) = .unimplemented op arg ∧
      step s = .next (completeStep (fetchWord s) (emit (.unimplemented op) (beginExecute s)))) ∨
    (halted s = false ∧ ∃ d src info,
      (decode (fetchWord s) = .movRegReg d src ∨ decode (fetchWord s) = .subRegReg d src) ∧
      resolve d src = .error info ∧ step s = .fault (.unknownRegister s.regs.ir info)) := by
  cases h : halted s with
  | true => exact .inl ⟨rfl, step_of_halted h⟩
  | false =>
    rcases exec_cases (decode (fetchWord s)) (beginExecute s) with
      ⟨rd, v, he⟩ | ⟨op, arg, hi, he⟩ | ⟨d, src, info, hi, hr, he⟩
    · exact .inr (.inl ⟨rfl, rd, v, he, step_of_exec_next h he⟩)
    · exact .inr (.inr (.inl ⟨rfl, op, arg, hi, step_of_exec_next h he⟩))
    · exact .inr (.inr (.inr ⟨rfl, d, src, info, hi, hr, step_of_exec_fault h he⟩))

/-- One step of the host's runner, when the step completes. -/
theorem core_run_succ_of_next (k : Nat) {s t : State} (h : step s = .next t) :
    Sys2Proof.core.run (k + 1) s = Sys2Proof.core.run k t := by
  have e : Sys2Proof.core.step s = .next t := h
  simp only [Host.Core.run, e]

end Sys2Proof.Machine
end

