-- ==== Sys2Proof/Tests/Slice0.lean ====
section
/-! SUPPORT. Small checks on fixed values, and a witness for the hypotheses of each statement that has any. The expected
values are those of spec/95_test_vectors.md or worked from the rule named. -/

open Sys2Proof Sys2Proof.Machine

namespace Sys2Proof.Tests

/-- A core constructed with these words, with these registers set by the host. -/
def tiny (f : RegFile) (ws : List Word) : State := { construct (.words ws) with regs := f }

/-- All registers 0. -/
def zeroed : RegFile := State.reset.regs

/-- The next step completes, and the state it leaves passes the check. -/
def after (s : State) (check : State → Bool) : Bool :=
  match step s with
  | .next t => check t
  | .fault _ => false
  | .refused _ => false

/-- The next step ends in the error of this record. -/
def errs (s : State) (record : ErrorRecord) : Bool :=
  match step s with
  | .next _ => false
  | .fault f => f.record == record
  | .refused _ => false

/-! ### Well-formedness: an ill-formed term for each catalog opcode, and the edges of the unimplemented ranges -/

theorem test_wf_refuses_each_catalog_opcode :
    [0x02#8, 0x03#8, 0x04#8, 0x05#8, 0x06#8, 0x1A#8, 0x1B#8].all (fun op => !(Instr.unimplemented op 0).wf) = true := by
  decide

theorem test_wf_accepts_range_edges :
    [0x00#8, 0x01#8, 0x07#8, 0x19#8, 0x1C#8, 0xFF#8].all (fun op => (Instr.unimplemented op 0).wf) = true := by
  decide

/-! ### Decoding: words written out from 30_encoding.md R56 and R62 -/

theorem test_decode_movAImm : decode 0b0000001000001000#16 = .movAImm 8 := by decide
theorem test_decode_movBImm : decode 0b0000001110000000#16 = .movBImm 128 := by decide
theorem test_decode_movCImm : decode 0b0000010000000100#16 = .movCImm 4 := by decide
theorem test_decode_movDImm : decode 0b0000010111111111#16 = .movDImm 255 := by decide
theorem test_decode_movRegReg : decode 0b0000011000010000#16 = .movRegReg 1 0 := by decide
theorem test_decode_subAImm : decode 0b0001101000000100#16 = .subAImm 4 := by decide
theorem test_decode_subRegReg : decode 0b0001101111110000#16 = .subRegReg 15 0 := by decide
theorem test_decode_unimplemented : decode 0b0001100111111111#16 = .unimplemented 0x19 0xFF := by decide
theorem test_encode_movRegReg : encode (.movRegReg 5 2) = 0x0652#16 := by decide
theorem test_table_word : decodeTableWord 16 0x1B21 = some (.subRegReg 2 1) := by decide
theorem test_no_word_is_rejected_by_name :
    (match decodeWords [] with | .ok _ => false | .error r => r == .noWord) = true := by decide

/-! ### One step of each instruction (95_test_vectors.md 2.2 to 2.8) -/

theorem test_movA_zero_extends :
    after (tiny { zeroed with a := 0x1234, ca := 5, z := 6 } [0x02FF])
      (fun t => t.regs == { zeroed with a := 0x00FF, ca := 5, z := 6, ir := 1 }) = true := by decide

theorem test_movB_is_not_sign_extended :
    after (tiny { zeroed with b := 0xFFFF } [0x0380]) (fun t => t.regs == { zeroed with b := 0x0080, ir := 1 }) = true := by
  decide

theorem test_movC : after (tiny zeroed [0x0404]) (fun t => t.regs == { zeroed with c := 4, ir := 1 }) = true := by decide

theorem test_movD :
    after (tiny zeroed [0x05FF]) (fun t => t.events == [.executed 0x05 0xFF .movDImm] && t.regs.d == 0x00FF) = true := by
  decide

theorem test_mov_reads_own_address :
    after (tiny { zeroed with ir := 1 } [0, 0x0675]) (fun t => t.regs == { zeroed with lr := 1, ir := 2 }) = true := by
  decide

theorem test_mov_to_ir_jumps_without_advance :
    after (tiny { zeroed with a := 3 } [0x0650]) (fun t => t.regs.ir == 3 && !t.irWritten) = true := by decide

theorem test_mov_error_reports_destination_first :
    errs (tiny { zeroed with ir := 1 } [0, 0x06FF])
      { address := 1, cause := .unknownRegister, info := { index := 15, field := .dest } } = true := by decide

theorem test_subA_wraps_and_writes_no_flag :
    after (tiny { zeroed with ca := 1, z := 1 } [0x1AFF])
      (fun t => t.regs == { zeroed with a := 0xFF01, ca := 1, z := 1, ir := 1 }) = true := by decide

theorem test_sub_from_ir :
    after (tiny { zeroed with b := 2, ir := 3 } [0, 0, 0, 0x1B51]) (fun t => t.regs == { zeroed with b := 2, ir := 1 }) = true := by
  decide

theorem test_sub_own_address :
    after (tiny { zeroed with b := 0x20, ir := 1 } [0, 0x1B15]) (fun t => t.regs.b == 0x1F && t.regs.ir == 2) = true := by
  decide

theorem test_sub_error_names_source :
    errs (tiny { zeroed with ir := 2 } [0, 0, 0x1B09])
      { address := 2, cause := .unknownRegister, info := { index := 9, field := .src } } = true := by decide

theorem test_unimplemented_reports_and_advances :
    after (tiny { zeroed with a := 7 } [0xFF00])
      (fun t => t.regs == { zeroed with a := 7, ir := 1 } && t.events == [.unimplemented 0xFF]) = true := by decide

theorem test_halted_step_is_no_op :
    after (tiny { zeroed with ir := 4 } [0, 0, 0, 0]) (fun t => t.regs.ir == 4 && t.events == [.halted 4]) = true := by decide

theorem test_ir_wraps_at_the_top :
    after { State.reset with regs := { zeroed with ir := 0xFFFF }, mem := Memory.new 65536 }
      (fun t => t.regs.ir == 0 && t.events == [.unimplemented 0x00]) = true := by decide

/-- From reset with a word placed for the fetch, that word runs as the first instruction. -/
theorem test_first_instruction_after_reset :
    after (State.reset.withFetchWord 16 0x0208) (fun t => t.regs.a == 8 && t.regs.ir == 1) = true := by decide

/-! ### Ports (95_test_vectors.md 1.1 to 1.3, 2.9) -/

theorem test_port_names_are_exact :
    regOfName "LR" = some .lr ∧ regOfName "ir" = none ∧ regOfName "PC" = none ∧ regOfName "E" = none := by decide

theorem test_host_write_out_of_bounds :
    transact (.write 4 9) (tiny zeroed [1, 2, 3, 4]) = (.failed .outOfBounds, tiny zeroed [1, 2, 3, 4]) := by decide

theorem test_host_restarts_a_halted_core :
    responses [.step, .setRegister "IR" 0, .step, .getRegister "A"] (tiny { zeroed with ir := 1 } [0x0201]) =
      [.stepped .halted, .ok, .stepped .continued, .value 1] := by decide

theorem test_mnemonic_names : mnemonicName .movAImm = "MOV_A_IMM" ∧ mnemonicName .subRegReg = "SUB_REG_REG" := by decide

theorem test_assembly_edges :
    assemble (.movImm .d 255) = some 0x05FF ∧ assemble (.movImm .d 256) = none ∧ assemble (.subImm .b 1) = none ∧
    assemble (.subReg .ir .c) = some 0x1B52 := by decide

/-! ### Witnesses: states and operands that meet the hypotheses of each statement -/

/-- DecodeEncodeRoundTrip. -/
theorem witness_wellFormed : (Instr.unimplemented 0x1C 0xFF).wf = true ∧ (Instr.movRegReg 15 15).wf = true := by decide

/-- AssemblyLinesGiveTheirWords: both sides of the immediate's bound, and a register without an immediate form. -/
theorem witness_assembly : (255 ≤ 255 ∧ 255 < 256) ∧ (Reg.ca = .ca ∧ Reg.b ≠ .a) := by decide

/-- RegisterPositions, InvalidIndexRaisesError: the boundary nibbles. -/
theorem witness_nibbles : 8 ≤ (8#4).toNat ∧ 8 ≤ (15#4).toNat ∧ (7#4).toNat < 8 := by decide

/-- HostRegisterReadAfterWrite, HostSetRegisterWritesOneRegister, HostReadsHaveNoSideEffect. -/
theorem witness_names :
    "LR" ∈ ["A", "B", "C", "D", "CA", "IR", "Z", "LR"] ∧ "ir" ∉ ["A", "B", "C", "D", "CA", "IR", "Z", "LR"] := by decide

/-- HostReadsHaveNoSideEffect, HostWriteStoresOneWord, HostWriteIsIdempotent, ReadsReturnTheLastWrite: the last index
and the first one outside. -/
theorem witness_bounds :
    (tiny zeroed [1, 0, 3, 4]).mem.wf = true ∧ 3 < (tiny zeroed [1, 0, 3, 4]).mem.size ∧
      (tiny zeroed [1, 0, 3, 4]).mem.size ≤ 4 := by decide

/-- FetchSeesTheHostWrite, PlacedWordIsFetched: at the last index. -/
theorem witness_running_wf :
    (tiny { zeroed with ir := 3 } [1, 0, 3, 4]).mem.wf = true ∧ Running (tiny { zeroed with ir := 3 } [1, 0, 3, 4]) := by
  decide

/-- SubtractionWraps: where its clauses meet. -/
theorem witness_borrow : (4#16).toNat ≤ (4#16).toNat ∧ (3#16).toNat < (4#16).toNat := by decide

/-- SignalRaisedExactlyByIrWrites, IrAdvancesUnlessWritten: an instruction of each kind completes. -/
theorem witness_exec_completes :
    (∃ t, exec (.movRegReg 5 5) { State.reset with irWritten := false } = .next t ∧ t.irWritten = true) ∧
    (∃ t, exec (.movRegReg 4 5) { State.reset with irWritten := false } = .next t ∧ t.irWritten = false) :=
  ⟨⟨_, rfl, rfl⟩, ⟨_, rfl, rfl⟩⟩

/-- StepRunsTheDecodedInstruction, IrAdvancesUnlessWritten. -/
theorem witness_step_runs :
    Running (tiny zeroed [0x0652]) ∧ Running (tiny zeroed [0x0601]) ∧
      (decode (fetchWord (tiny zeroed [0x0652]))).destination = some .ir ∧
      (decode (fetchWord (tiny zeroed [0x0601]))).destination ≠ some .ir := by decide

theorem witness_step_next :
    (∃ t, step (tiny zeroed [0x0652]) = .next t) ∧ (∃ t, step (tiny zeroed [0x0601]) = .next t) :=
  ⟨⟨_, rfl⟩, ⟨_, rfl⟩⟩

/-- HaltedStepIsNoOp, OnlyTheHostLeavesHalted: the first index outside, and an empty memory. -/
theorem witness_halted :
    (tiny { zeroed with ir := 1 } [0x0201]).mem.size ≤ (1#16).toNat ∧ (tiny zeroed []).mem.size ≤ (0#16).toNat := by decide

/-- The core runs, and this is the word at IR. -/
def isAt (s : State) (w : Word) : Bool := decide (Running s) && s.mem.cellAt s.regs.ir.toNat == w

/-- StepOfImmediateMoves and StepOfSubtractImmediate: a word of each clause, at the largest and smallest immediate. -/
theorem witness_immediate_words :
    isAt (tiny zeroed [0x02FF]) (0x0200#16 ||| (0xFF#8).setWidth 16) = true ∧
    isAt (tiny zeroed [0x0300]) (0x0300#16 ||| (0x00#8).setWidth 16) = true ∧
    isAt (tiny zeroed [0x04FF]) (0x0400#16 ||| (0xFF#8).setWidth 16) = true ∧
    isAt (tiny zeroed [0x0500]) (0x0500#16 ||| (0x00#8).setWidth 16) = true ∧
    isAt (tiny zeroed [0x1AFF]) (0x1A00#16 ||| (0xFF#8).setWidth 16) = true := by decide

/-- StepOfMoveRegister: a valid pair, each invalid nibble at its boundary, and the loop. -/
theorem witness_move_words :
    isAt (tiny zeroed [0x0677]) (0x0600#16 ||| ((7#4).setWidth 16 <<< 4) ||| (7#4).setWidth 16) = true ∧
    isAt (tiny zeroed [0x0687]) (0x0600#16 ||| ((8#4).setWidth 16 <<< 4) ||| (7#4).setWidth 16) = true ∧
    isAt (tiny zeroed [0x0678]) (0x0600#16 ||| ((7#4).setWidth 16 <<< 4) ||| (8#4).setWidth 16) = true ∧
    isAt (tiny zeroed [0x0655]) (0x0600#16 ||| ((5#4).setWidth 16 <<< 4) ||| (5#4).setWidth 16) = true ∧
    7#4 = regIndex .lr := by decide

/-- StepOfSubtractRegister: a valid pair, each invalid nibble at its boundary, and the loop with a zero source. -/
theorem witness_subtract_words :
    isAt (tiny zeroed [0x1B77]) (0x1B00#16 ||| ((7#4).setWidth 16 <<< 4) ||| (7#4).setWidth 16) = true ∧
    isAt (tiny zeroed [0x1B80]) (0x1B00#16 ||| ((8#4).setWidth 16 <<< 4) ||| (0#4).setWidth 16) = true ∧
    isAt (tiny zeroed [0x1B08]) (0x1B00#16 ||| ((0#4).setWidth 16 <<< 4) ||| (8#4).setWidth 16) = true ∧
    isAt (tiny zeroed [0x1B50]) (0x1B00#16 ||| ((5#4).setWidth 16 <<< 4) ||| (0#4).setWidth 16) = true ∧
    0#4 = regIndex .a ∧ (tiny zeroed [0x1B50]).regs.get .a = 0 := by decide

/-- StepOfUnimplementedOpcode: the opcodes beside the catalog's. -/
theorem witness_unimplemented_words :
    isAt (tiny zeroed [0x1CFF]) (0x1C#8 ++ 0xFF#8 : BitVec 16) = true ∧
    isAt (tiny zeroed [0x01AB]) (0x01#8 ++ 0xAB#8 : BitVec 16) = true ∧
    0x1C#8 ∉ [0x02#8, 0x03#8, 0x04#8, 0x05#8, 0x06#8, 0x1A#8, 0x1B#8] ∧
    0x01#8 ∉ [0x02#8, 0x03#8, 0x04#8, 0x05#8, 0x06#8, 0x1A#8, 0x1B#8] := by decide

/-- ErrorIsPreciseAndRepeats, StepFaultsExactlyOnInvalidIndex. -/
theorem witness_step_faults :
    step (tiny zeroed [0x0608]) = .fault (.unknownRegister 0 { index := 8, field := .src }) := rfl

/-- StepReadsOnlyTheFetchedWord: two cores that differ in a word that is not fetched. -/
theorem witness_agreeing_cores :
    (tiny zeroed [0x0204, 1]).regs = (tiny zeroed [0x0204, 2]).regs ∧
    (tiny zeroed [0x0204, 1]).mem.size = (tiny zeroed [0x0204, 2]).mem.size ∧
    (tiny zeroed [0x0204, 1]).irWritten = (tiny zeroed [0x0204, 2]).irWritten ∧
    (tiny zeroed [0x0204, 1]).events = (tiny zeroed [0x0204, 2]).events ∧
    fetchWord (tiny zeroed [0x0204, 1]) = fetchWord (tiny zeroed [0x0204, 2]) ∧
    (tiny zeroed [0x0204, 1]).mem ≠ (tiny zeroed [0x0204, 2]).mem := by decide

/-- OnlyTheDestinationChanges: CA changes, through its index. -/
theorem witness_ca_changes :
    after (tiny { zeroed with b := 9 } [0x0641]) (fun t => t.regs.get .ca != (tiny { zeroed with b := 9 } [0x0641]).regs.get .ca)
      = true := by decide

/-- OneEventPerStep: a step of each outcome. -/
theorem witness_each_outcome :
    (stepCall (tiny zeroed [])).1 = .ok .halted ∧ (stepCall (tiny zeroed [0x0204])).1 = .ok .continued ∧
    (stepCall (tiny zeroed [0x0000])).1 = .ok .continued ∧
    Mnemonic.movAImm.opcode = opcodeOf (fetchWord (tiny zeroed [0x0204])) ∧
    (stepCall (tiny zeroed [0x0680])).1 =
      .ok (.error { address := 0, cause := .unknownRegister, info := { index := 8, field := .dest } }) := by decide

/-- OneEventPerStep: an opcode that is no mnemonic's. -/
theorem witness_no_mnemonic : ∀ m : Mnemonic, m.opcode ≠ opcodeOf (fetchWord (tiny zeroed [0x0000])) := by
  intro m
  cases m <;> decide

/-- StepKeepsTheInvariant, SessionsKeepInvariantAndCapacity. -/
theorem witness_inv : (tiny zeroed [0x0204, 0, 7]).Inv ∧ ∃ t, step (tiny zeroed [0x0204, 0, 7]) = .next t :=
  ⟨⟨by decide, rfl⟩, ⟨_, rfl⟩⟩

/-- RunResultIsStable: a run with each result. -/
theorem witness_run_results :
    (runCall 2 (tiny zeroed [0x0204])).1 = .ok (some .halted) ∧
    (runCall 1 (tiny zeroed [0x1B80])).1 =
      .ok (some (.error { address := 0, cause := .unknownRegister, info := { index := 8, field := .dest } })) := by decide

/-- FullRangeMemoryNeverHalts: at its boundary. -/
theorem witness_full_range : 65536 ≤ (construct (.size 65536)).mem.size := Nat.le_refl 65536

/-- SelfJumpsNeverHalt: each loop. -/
theorem witness_self_jumps :
    Running (tiny { zeroed with a := 1, ir := 1 } [0, 0x0650]) ∧ Running (tiny zeroed [0x1B50]) ∧
    (decode (fetchWord (tiny { zeroed with a := 1, ir := 1 } [0, 0x0650])) = .movRegReg (regIndex .ir) (regIndex .a) ∧
      (tiny { zeroed with a := 1, ir := 1 } [0, 0x0650]).regs.get .a = 1) ∧
    (decode (fetchWord (tiny zeroed [0x1B50])) = .subRegReg (regIndex .ir) (regIndex .a) ∧
      (tiny zeroed [0x1B50]).regs.get .a = 0) := by decide

/-- MemoryOfValidIndicesIsSafe: every word of a memory. -/
theorem witness_valid_indices :
    ∀ i : Nat, i < (tiny zeroed [0x0677, 0x1B50]).mem.size → i < 65536 →
      (decode ((tiny zeroed [0x0677, 0x1B50]).mem.cellAt i)).namesRegisters = true := by
  intro i h _
  match i, h with
  | 0, _ => decide
  | 1, _ => decide

/-- ZeroMemoryRunsToItsEnd: the largest size it speaks of. -/
theorem witness_zero_memory : 65535 < 65536 := by decide

end Sys2Proof.Tests
end

/-! ## Proofs of the state family (10_state.md): the rules that its statements share -/

namespace Sys2Proof.Machine

/-! ### Names on the host register port -/

theorem mem_allRegs (r : Reg) : r ∈ allRegs := by
  cases r <;> decide

/-- The eight names are exactly the strings that name a register. -/
theorem mem_names_iff (name : String) : name ∈ allRegs.map regName ↔ ∃ r, regOfName name = some r := by
  simp only [regOfName_eq_some_iff, List.mem_map, mem_allRegs, true_and, eq_comm (b := name)]

theorem regOfName_eq_none_of_not_mem {name : String} (h : name ∉ allRegs.map regName) : regOfName name = none :=
  Option.eq_none_iff_forall_ne_some.mpr fun r hr => h ((mem_names_iff name).mpr ⟨r, hr⟩)

theorem regName_injective : Function.Injective regName := by
  intro r q h
  simpa using congrArg regOfName h

theorem getRegister_of_some {name : String} {r : Reg} (s : State) (h : regOfName name = some r) :
    getRegister name s = .ok (s.regs.get r) := by
  simp [getRegister, h]

theorem getRegister_of_none {name : String} (s : State) (h : regOfName name = none) :
    getRegister name s = .error .unknownRegister := by
  simp [getRegister, h]

theorem setRegister_of_some {name : String} {r : Reg} (v : Word) (s : State) (h : regOfName name = some r) :
    setRegister name v s = .ok { s with regs := s.regs.set r v } := by
  simp [setRegister, h]

theorem setRegister_of_none {name : String} (v : Word) (s : State) (h : regOfName name = none) :
    setRegister name v s = .error .unknownRegister := by
  simp [setRegister, h]

/-! ### The register write and the subtraction -/

/-- A read after a write, to the same register and to another. -/
theorem get_set (f : RegFile) (r q : Reg) (v : Word) : (f.set r v).get q = if q = r then v else f.get q := by
  by_cases h : q = r
  · subst h; simp
  · simp [h]

/-- The frame of an instruction's register write (10_state.md R17). -/
theorem writeReg_onlyRegisterMayDiffer (r : Reg) (v : Word) (s : State) :
    OnlyRegisterMayDiffer r s (writeReg r v s) :=
  ⟨fun _ hq => get_set_of_ne s.regs v hq, fun _ => rfl, rfl, rfl⟩

/-- The signal after a register write (10_state.md R28). -/
theorem writeReg_irWritten_iff (r : Reg) (v : Word) (s : State) :
    (writeReg r v s).irWritten = true ↔ s.irWritten = true ∨ r = .ir := by
  simp

/-- `sub16` is the difference modulo 65536 (42_subtract.md R84). -/
theorem sub16_toNat_emod (a b : Word) : ((sub16 a b).toNat : Int) = ((a.toNat : Int) - (b.toNat : Int)) % 65536 := by
  have ha := a.isLt
  have hb := b.isLt
  simp only [sub16, BitVec.toNat_sub]
  omega

/-! ### What execution can do -/

theorem exec_movRegReg_regIndex (rd rs : Reg) (s : State) :
    exec (.movRegReg (regIndex rd) (regIndex rs)) s = .next (writeReg rd (s.regs.get rs) s) := by
  simp [exec, execMovRegReg]

theorem exec_subRegReg_regIndex (rd rs : Reg) (s : State) :
    exec (.subRegReg (regIndex rd) (regIndex rs)) s =
      .next (writeReg rd (sub16 (s.regs.get rd) (s.regs.get rs)) s) := by
  simp [exec, execSubRegReg]

theorem regOfIndex_of_resolve_ok {d src : Nibble} {p : Reg × Reg} (h : resolve d src = .ok p) :
    regOfIndex d = some p.1 := by
  rcases resolve_cases d src with ⟨rd, rs, rfl, -, hr⟩ | ⟨-, hr⟩ | ⟨-, -, hr⟩ <;> cases hr.symm.trans h
  exact regOfIndex_regIndex rd

/-- A completed execution is a write of the instruction's destination, or the unimplemented diagnostic, which has no
destination. -/
theorem exec_next_cases {i : Instr} {s t : State} (h : exec i s = .next t) :
    (∃ rd v, i.destination = some rd ∧ t = writeReg rd v s) ∨
    (∃ op, i.destination = none ∧ t = emit (.unimplemented op) s) := by
  cases i with
  | movAImm imm => cases h; exact .inl ⟨.a, _, rfl, rfl⟩
  | movBImm imm => cases h; exact .inl ⟨.b, _, rfl, rfl⟩
  | movCImm imm => cases h; exact .inl ⟨.c, _, rfl, rfl⟩
  | movDImm imm => cases h; exact .inl ⟨.d, _, rfl, rfl⟩
  | subAImm imm => cases h; exact .inl ⟨.a, _, rfl, rfl⟩
  | unimplemented op arg => cases h; exact .inr ⟨op, rfl, rfl⟩
  | movRegReg d src =>
    cases hr : resolve d src with
    | error info => simp [exec, execMovRegReg, hr, raiseUnknownRegister] at h
    | ok p =>
      simp only [exec, execMovRegReg, hr, Host.Outcome.next.injEq] at h
      exact .inl ⟨p.1, _, regOfIndex_of_resolve_ok hr, h.symm⟩
  | subRegReg d src =>
    cases hr : resolve d src with
    | error info => simp [exec, execSubRegReg, hr, raiseUnknownRegister] at h
    | ok p =>
      simp only [exec, execSubRegReg, hr, Host.Outcome.next.injEq] at h
      exact .inl ⟨p.1, _, regOfIndex_of_resolve_ok hr, h.symm⟩

/-- No instruction writes memory (20_memory.md R38). -/
theorem exec_next_mem {i : Instr} {s t : State} (h : exec i s = .next t) : t.mem = s.mem := by
  rcases exec_next_cases h with ⟨rd, v, -, rfl⟩ | ⟨op, -, rfl⟩ <;> rfl

/-- An instruction changes no register but its destination. -/
theorem exec_next_get_of_ne {i : Instr} {s t : State} {r : Reg} (h : exec i s = .next t)
    (hr : i.destination ≠ some r) : t.regs.get r = s.regs.get r := by
  rcases exec_next_cases h with ⟨rd, v, hd, rfl⟩ | ⟨op, -, rfl⟩
  · have hne : r ≠ rd := by rintro rfl; exact hr hd
    exact get_set_of_ne s.regs v hne
  · rfl

/-- Execution raises the signal exactly when it writes IR (10_state.md R28). -/
theorem exec_next_irWritten_iff {i : Instr} {s t : State} (h : exec i s = .next t) :
    t.irWritten = true ↔ s.irWritten = true ∨ i.destination = some .ir := by
  rcases exec_next_cases h with ⟨rd, v, hd, rfl⟩ | ⟨op, hd, rfl⟩
  · rw [writeReg_irWritten_iff, hd, Option.some_inj]
  · simp [hd]

/-- CA, Z and LR are a destination only by an explicit index (10_state.md R22). -/
theorem explicit_index_of_destination {i : Instr} {r : Reg} (hd : i.destination = some r)
    (hr : r = .ca ∨ r = .z ∨ r = .lr) :
    ∃ src : Nibble, i = .movRegReg (regIndex r) src ∨ i = .subRegReg (regIndex r) src := by
  cases i with
  | movRegReg d src => exact ⟨src, .inl (by rw [(regOfIndex_eq_some_iff d r).mp hd])⟩
  | subRegReg d src => exact ⟨src, .inr (by rw [(regOfIndex_eq_some_iff d r).mp hd])⟩
  | unimplemented op arg => cases hd
  | movAImm imm | movBImm imm | movCImm imm | movDImm imm | subAImm imm => cases hd; simp at hr

/-! ### What a step can do -/

/-- A step that answers a next state is the halted no-op, or the completion of an executed instruction. -/
theorem step_next_cases {s t : State} (h : step s = .next t) :
    (halted s = true ∧ t = haltedStep s) ∨
    (halted s = false ∧ ∃ u, exec (decode (fetchWord s)) (beginExecute s) = .next u ∧
      t = completeStep (fetchWord s) u) := by
  rcases step_cases s with
    ⟨hh, hs⟩ | ⟨hh, rd, v, he, hs⟩ | ⟨hh, op, arg, hi, hs⟩ | ⟨-, _, _, _, -, -, hs⟩ <;> cases hs.symm.trans h
  · exact .inl ⟨hh, rfl⟩
  · exact .inr ⟨hh, _, he, rfl⟩
  · exact .inr ⟨hh, _, by rw [hi]; rfl, rfl⟩

/-- The IR advance touches no register but IR. -/
theorem completeStep_get_of_ne_ir (w : Word) (s : State) {r : Reg} (hr : r ≠ .ir) :
    (completeStep w s).regs.get r = s.regs.get r := by
  rw [completeStep_regs]
  split
  · rfl
  · exact get_set_of_ne s.regs _ hr

/-- No step writes memory (20_memory.md R38). -/
theorem step_next_mem {s t : State} (h : step s = .next t) : t.mem = s.mem := by
  rcases step_next_cases h with ⟨-, rfl⟩ | ⟨-, u, hu, rfl⟩
  · rfl
  · rw [completeStep_mem, exec_next_mem hu, beginExecute_mem]

/-- A step from a signal that holds nothing leaves one that holds nothing. -/
theorem step_next_irWritten {s t : State} (hs : s.irWritten = false) (h : step s = .next t) :
    t.irWritten = false := by
  rcases step_next_cases h with ⟨-, rfl⟩ | ⟨-, u, -, rfl⟩
  · exact hs
  · rfl

theorem step_keeps_inv {s t : State} (hs : s.Inv) (h : step s = .next t) : t.Inv := by
  obtain ⟨hwf, hir⟩ := hs
  exact ⟨by rwa [step_next_mem h], step_next_irWritten hir h⟩

/-! ### What a transaction can do, and what a session keeps -/

/-- `step()` leaves the state that the step answers, or, on an error, the one before it (60_exceptions.md R97). -/
theorem stepCall_state_cases (s : State) : step s = .next (stepCall s).2 ∨ (stepCall s).2 = s := by
  unfold stepCall
  cases step s with
  | next t => exact .inl rfl
  | fault f => exact .inr rfl
  | refused r => exact .inr rfl

/-- What every `step()` keeps, every `run()` keeps. -/
theorem runCall_keeps {P : State → Prop} (hstep : ∀ s, P s → P (stepCall s).2) (n : Nat) {s : State} (hs : P s) :
    P (runCall n s).2 := by
  induction n generalizing s with
  | zero => exact hs
  | succ n ih =>
    have ht := hstep s hs
    unfold runCall
    split <;> rename_i he <;> rw [he] at ht
    · exact ih ht
    · exact ht
    · exact ht
    · exact ht

@[simp] theorem transact_getRegister_state (name : String) (s : State) :
    (transact (.getRegister name) s).2 = s := by
  cases h : regOfName name with
  | none => rw [transact_getRegister_of_none h]
  | some r => rw [transact_getRegister_of_some h]

@[simp] theorem transact_read_state (i : Nat) (s : State) : (transact (.read i) s).2 = s := by
  rcases Nat.lt_or_ge i s.mem.size with h | h
  · rw [transact_read_of_lt h]
  · rw [transact_read_of_le h]

/-- What every `step()`, every register overwrite and every write of a cell in bounds keep, every transaction keeps. -/
theorem transact_keeps {P : State → Prop} (hstep : ∀ s, P s → P (stepCall s).2)
    (hset : ∀ s r v, P s → P { s with regs := s.regs.set r v })
    (hwrite : ∀ s i v, i < s.mem.size → P s → P { s with mem := s.mem.withCell i v })
    (x : Transaction) {s : State} (hs : P s) : P (transact x s).2 := by
  cases x with
  | step => rw [transact_step_state]; exact hstep s hs
  | run n => rw [transact_run_state]; exact runCall_keeps hstep n hs
  | getRegister name => rwa [transact_getRegister_state]
  | setRegister name v =>
    cases h : regOfName name with
    | none => rwa [transact_setRegister_of_none v h]
    | some r => rw [transact_setRegister_of_some v h]; exact hset s r v hs
  | read i => rwa [transact_read_state]
  | write i v =>
    rcases Nat.lt_or_ge i s.mem.size with h | h
    · rw [transact_write_of_lt v h]; exact hwrite s i v h hs
    · rwa [transact_write_of_le v h]

/-- What every transaction keeps, every session keeps. -/
theorem session_keeps {P : State → Prop} (hx : ∀ x s, P s → P (transact x s).2) (xs : List Transaction) {s : State}
    (hs : P s) : P (session xs s) := by
  induction xs generalizing s with
  | nil => exact hs
  | cons x xs ih => exact ih (hx x s hs)

/-- The model's invariant at a fixed capacity: what the sessions of one construction keep (20_memory.md R32). -/
def InvAtCapacity (n : Nat) (s : State) : Prop := s.Inv ∧ s.mem.size = n

theorem stepCall_keeps_invAtCapacity {n : Nat} (s : State) (hs : InvAtCapacity n s) :
    InvAtCapacity n (stepCall s).2 := by
  obtain ⟨hinv, hsize⟩ := hs
  rcases stepCall_state_cases s with h | h
  · exact ⟨step_keeps_inv hinv h, by rwa [step_next_mem h]⟩
  · rw [h]; exact ⟨hinv, hsize⟩

theorem setRegister_keeps_invAtCapacity {n : Nat} (s : State) (r : Reg) (v : Word) (hs : InvAtCapacity n s) :
    InvAtCapacity n { s with regs := s.regs.set r v } :=
  hs

theorem withCell_keeps_invAtCapacity {n : Nat} (s : State) (i : Nat) (v : Word) (hi : i < s.mem.size)
    (hs : InvAtCapacity n s) : InvAtCapacity n { s with mem := s.mem.withCell i v } := by
  obtain ⟨⟨hwf, hir⟩, hsize⟩ := hs
  exact ⟨⟨withCell_wf v hi hwf, hir⟩, hsize⟩

theorem transact_keeps_invAtCapacity {n : Nat} (x : Transaction) (s : State) (hs : InvAtCapacity n s) :
    InvAtCapacity n (transact x s).2 :=
  transact_keeps stepCall_keeps_invAtCapacity setRegister_keeps_invAtCapacity withCell_keeps_invAtCapacity x hs

/-! ### A halted core -/

theorem stepCall_of_halted {s : State} (h : s.mem.size ≤ s.regs.ir.toNat) :
    stepCall s = (.ok .halted, haltedStep s) := by
  have hh := (halted_eq_true_iff s).mpr h
  simp [stepCall, step_of_halted hh, hh]

/-- No step and no run moves a halted core (40_cycle.md R76). -/
theorem runCall_of_halted {s : State} (h : s.mem.size ≤ s.regs.ir.toNat) (n : Nat) :
    (runCall n s).2.regs = s.regs ∧ (runCall n s).2.mem = s.mem := by
  refine runCall_keeps (P := fun t => t.regs = s.regs ∧ t.mem = s.mem) (fun t ht => ?_) n ⟨rfl, rfl⟩
  obtain ⟨hregs, hmem⟩ := ht
  rw [stepCall_of_halted (by rwa [hregs, hmem])]
  exact ⟨hregs, hmem⟩

/-- From a halted core, every transaction but `set_register` leaves the registers and the capacity as they are. -/
theorem transact_of_halted {s : State} (h : s.mem.size ≤ s.regs.ir.toNat) {x : Transaction}
    (hx : ∀ name v, x ≠ .setRegister name v) :
    (transact x s).2.regs = s.regs ∧ (transact x s).2.mem.size = s.mem.size := by
  cases x with
  | step => rw [transact_step_state, stepCall_of_halted h]; exact ⟨rfl, rfl⟩
  | run n =>
    obtain ⟨hregs, hmem⟩ := runCall_of_halted h n
    rw [transact_run_state]
    exact ⟨hregs, congrArg Memory.size hmem⟩
  | getRegister name => rw [transact_getRegister_state]; exact ⟨rfl, rfl⟩
  | setRegister name v => exact absurd rfl (hx name v)
  | read i => rw [transact_read_state]; exact ⟨rfl, rfl⟩
  | write i v =>
    rcases Nat.lt_or_ge i s.mem.size with hi | hi
    · rw [transact_write_of_lt v hi]; exact ⟨rfl, rfl⟩
    · rw [transact_write_of_le v hi]; exact ⟨rfl, rfl⟩

/-- A halted core runs after `set_register` exactly when the register is IR and the value is in bounds. -/
theorem running_setRegister_iff {s : State} (h : s.mem.size ≤ s.regs.ir.toNat) (name : String) (v : Word) :
    Running (transact (.setRegister name v) s).2 ↔ name = "IR" ∧ v.toNat < s.mem.size := by
  cases hn : regOfName name with
  | none =>
    have hne : name ≠ "IR" := by rintro rfl; cases hn
    simp [transact_setRegister_of_none v hn, hne, h]
  | some r =>
    have hname := (regOfName_eq_some_iff name r).mp hn
    rw [transact_setRegister_of_some v hn]
    by_cases hr : r = .ir
    · subst hr hname
      simp [regName]
    · have hne : name ≠ "IR" := by rw [hname]; exact fun e => hr (regName_injective e)
      simp [set_ir_of_ne s.regs v hr, hne, h]

end Sys2Proof.Machine

/-! ## The statements of the state family -/

namespace Sys2Proof.Machine

/-- Settles O42: the memory is untouched and the completion clears the signal. -/
theorem stepKeepsTheInvariant : Obligations.StepKeepsTheInvariant :=
  fun _ _ hs h => step_keeps_inv hs h

/-- Settles O43, by induction on the session with the capacity in the invariant. -/
theorem sessionsKeepInvariantAndCapacity : Obligations.SessionsKeepInvariantAndCapacity := by
  intro xs s hs
  have h0 : InvAtCapacity s.mem.size s := ⟨hs, rfl⟩
  exact session_keeps transact_keeps_invAtCapacity xs h0

/-- Settles O10. -/
theorem hostRegisterReadAfterWrite : Obligations.HostRegisterReadAfterWrite := by
  intro name v s
  constructor
  · intro hmem
    obtain ⟨r, hr⟩ := (mem_names_iff name).mp hmem
    refine ⟨_, setRegister_of_some v s hr, ?_⟩
    rw [getRegister_of_some _ hr, get_set_same]
  · intro hmem
    have hn := regOfName_eq_none_of_not_mem hmem
    exact ⟨setRegister_of_none v s hn, getRegister_of_none s hn⟩

/-- Settles O28. -/
theorem signalRaisedExactlyByIrWrites : Obligations.SignalRaisedExactlyByIrWrites := by
  intro i s t h
  simpa using exec_next_irWritten_iff h

/-- Settles O39: neither the advance nor the execution reaches a register that is not IR and not the destination. -/
theorem onlyTheDestinationChanges : Obligations.OnlyTheDestinationChanges := by
  intro s t r h hir hchanged
  rcases step_next_cases h with ⟨-, rfl⟩ | ⟨hrun, u, hu, rfl⟩
  · exact absurd rfl hchanged
  · have hd : (decode (fetchWord s)).destination = some r := by
      by_contra hne
      have hexec := exec_next_get_of_ne hu hne
      exact hchanged ((completeStep_get_of_ne_ir _ u hir).trans hexec)
    exact ⟨(halted_eq_false_iff s).mp hrun, hd, explicit_index_of_destination hd⟩

/-- Settles O45, by the transactions: only `set_register` can move IR of a halted core. -/
theorem onlyTheHostLeavesHalted : Obligations.OnlyTheHostLeavesHalted := by
  intro s x h
  refine ⟨?_, ?_⟩
  · by_cases hx : ∃ name v, x = .setRegister name v
    · obtain ⟨name, v, rfl⟩ := hx
      rw [running_setRegister_iff h]
      constructor
      · rintro ⟨rfl, hv⟩
        exact ⟨v, rfl, hv⟩
      · rintro ⟨w, e, hw⟩
        cases e
        exact ⟨rfl, hw⟩
    · push Not at hx
      obtain ⟨hregs, hsize⟩ := transact_of_halted h hx
      have hstill : ¬ Running (transact x s).2 := by rw [Running, hregs, hsize]; omega
      exact iff_of_false hstill fun ⟨v, e, _⟩ => hx "IR" v e
  · rw [transact_step_state, stepCall_of_halted h]
    exact ⟨rfl, rfl⟩

/-- Settles O8. -/
theorem registerPositions : Obligations.RegisterPositions :=
  ⟨regOfIndex_regIndex .a, regOfIndex_regIndex .b, regOfIndex_regIndex .c, regOfIndex_regIndex .d,
    regOfIndex_regIndex .ca, regOfIndex_regIndex .ir, regOfIndex_regIndex .z, regOfIndex_regIndex .lr,
    rfl, rfl, rfl, rfl, rfl, rfl, rfl, rfl, regOfIndex_regIndex, fun n => (regOfIndex_eq_none_iff n).mpr⟩

/-- Settles O9. -/
theorem registersHoldWhatWasWritten : Obligations.RegistersHoldWhatWasWritten :=
  fun s r q v => get_set s.regs r q v

/-- Settles O11: each of the eight names is the name of its register. -/
theorem hostSetRegisterWritesOneRegister : Obligations.HostSetRegisterWritesOneRegister := by
  intro v s
  have hset (r : Reg) := transact_setRegister_of_some (s := s) v (regOfName_regName r)
  exact ⟨hset .a, hset .b, hset .c, hset .d, hset .ca, hset .ir, hset .z, hset .lr,
    fun _ hmem => transact_setRegister_of_none v (regOfName_eq_none_of_not_mem hmem)⟩

/-- Settles O12. -/
theorem hostReadsHaveNoSideEffect : Obligations.HostReadsHaveNoSideEffect := by
  refine ⟨fun s => ?_, fun _ _ hmem => transact_getRegister_of_none (regOfName_eq_none_of_not_mem hmem),
    fun _ _ hi => transact_read_of_lt hi, fun _ _ hi => transact_read_of_le hi⟩
  have hget (r : Reg) := transact_getRegister_of_some (s := s) (regOfName_regName r)
  exact ⟨hget .a, hget .b, hget .c, hget .d, hget .ca, hget .ir, hget .z, hget .lr⟩

/-- Settles O19: construction puts a memory under the registers of reset, and IR is 0 there. -/
theorem constructionZeroesRegisters : Obligations.ConstructionZeroesRegisters :=
  fun _ => ⟨rfl, Iff.rfl⟩

/-- Settles O20. -/
theorem resetMeetsTheInvariant : Obligations.ResetMeetsTheInvariant :=
  ⟨⟨reset_memory_wf, rfl⟩, rfl, fun c => ⟨construction_memory_wf c, rfl⟩⟩

/-- Settles O23. -/
theorem moveRegisterCompletes : Obligations.MoveRegisterCompletes := by
  intro rd rs s
  refine ⟨_, exec_movRegReg_regIndex rd rs s, ?_, writeReg_onlyRegisterMayDiffer rd _ s,
    writeReg_irWritten_iff rd _ s⟩
  rw [writeReg_regs, get_set_same]

/-- Settles O25. -/
theorem subtractRegisterCompletes : Obligations.SubtractRegisterCompletes := by
  intro rd rs s
  refine ⟨_, exec_subRegReg_regIndex rd rs s, ?_, writeReg_onlyRegisterMayDiffer rd _ s,
    writeReg_irWritten_iff rd _ s⟩
  rw [writeReg_regs, get_set_same]
  exact sub16_toNat_emod _ _

end Sys2Proof.Machine

/-! ## Proofs of the memory family (20_memory.md): the rules that its statements share -/

namespace Sys2Proof.Machine

/-! ### What a transaction does to the memory -/

/-- No `step()` writes memory, whatever its outcome (20_memory.md R38). -/
@[simp] theorem stepCall_mem (s : State) : (stepCall s).2.mem = s.mem := by
  rcases stepCall_state_cases s with h | h
  · exact step_next_mem h
  · rw [h]

@[simp] theorem runCall_mem (n : Nat) (s : State) : (runCall n s).2.mem = s.mem :=
  runCall_keeps (P := fun t => t.mem = s.mem) (fun t ht => (stepCall_mem t).trans ht) n rfl

theorem transact_mem_size (x : Transaction) (s : State) : (transact x s).2.mem.size = s.mem.size :=
  transact_keeps (P := fun t => t.mem.size = s.mem.size) (fun t ht => by rwa [stepCall_mem])
    (fun _ _ _ ht => ht) (fun _ _ _ _ ht => ht) x rfl

theorem transact_mem_wf (x : Transaction) {s : State} (h : s.mem.wf = true) : (transact x s).2.mem.wf = true :=
  transact_keeps (P := fun t => t.mem.wf = true) (fun t ht => by rwa [stepCall_mem])
    (fun _ _ _ ht => ht) (fun _ _ v hi ht => withCell_wf v hi ht) x h

/-- Every transaction but a host write leaves the memory alone. -/
theorem transact_mem_of_not_write {x : Transaction} (hx : ∀ i v, x ≠ .write i v) (s : State) :
    (transact x s).2.mem = s.mem := by
  cases x with
  | step => rw [transact_step_state, stepCall_mem]
  | run n => rw [transact_run_state, runCall_mem]
  | getRegister name => rw [transact_getRegister_state]
  | setRegister name v =>
    cases h : regOfName name with
    | none => rw [transact_setRegister_of_none v h]
    | some r => rw [transact_setRegister_of_some v h]
  | read i => rw [transact_read_state]
  | write i v => exact absurd rfl (hx i v)

theorem writtenBy_of_not_write {x : Transaction} (hx : ∀ i v, x ≠ .write i v) (i : Nat) : writtenBy i x = none := by
  cases x with
  | write j v => exact absurd rfl (hx j v)
  | step | run | getRegister | setRegister | read => rfl

/-- A cell in bounds after one transaction: what the transaction wrote there, or what the cell held. -/
theorem transact_cellAt (x : Transaction) {s : State} {i : Nat} (h : s.mem.wf = true) (hi : i < s.mem.size) :
    (transact x s).2.mem.cellAt i = (writtenBy i x).getD (s.mem.cellAt i) := by
  by_cases hx : ∀ j v, x ≠ .write j v
  · rw [transact_mem_of_not_write hx, writtenBy_of_not_write hx, Option.getD_none]
  · push Not at hx
    obtain ⟨j, v, rfl⟩ := hx
    by_cases hji : j = i
    · subst hji
      simp [transact_write_of_lt v hi, cellAt_withCell_same j v h, writtenBy]
    · have hkeep : (transact (.write j v) s).2.mem.cellAt i = s.mem.cellAt i := by
        rcases Nat.lt_or_ge j s.mem.size with hj | hj
        · rw [transact_write_of_lt v hj]
          exact cellAt_withCell_ne s.mem v (Ne.symm hji)
        · rw [transact_write_of_le v hj]
      simp [hkeep, writtenBy, hji]

theorem session_mem_size (xs : List Transaction) (s : State) : (session xs s).mem.size = s.mem.size :=
  session_keeps (P := fun t => t.mem.size = s.mem.size) (fun x t ht => (transact_mem_size x t).trans ht) xs rfl

/-- A cell in bounds after a session holds the last write to it (20_memory.md R44). -/
theorem session_cellAt (xs : List Transaction) {s : State} {i : Nat} (h : s.mem.wf = true) (hi : i < s.mem.size) :
    (session xs s).mem.cellAt i = (lastWriteTo i xs).getD (s.mem.cellAt i) := by
  induction xs generalizing s with
  | nil => rfl
  | cons x xs ih =>
    have hi' : i < (transact x s).2.mem.size := by rwa [transact_mem_size]
    calc (session xs (transact x s).2).mem.cellAt i
        = (lastWriteTo i xs).getD ((transact x s).2.mem.cellAt i) := ih (transact_mem_wf x h) hi'
      _ = (lastWriteTo i xs).getD ((writtenBy i x).getD (s.mem.cellAt i)) := by rw [transact_cellAt x h hi]
      _ = (lastWriteTo i (x :: xs)).getD (s.mem.cellAt i) := Option.getD_or.symm

/-! ### Memories as data -/

/-- A second write of the same value leaves the same memory, as data: the canonical form is unique (20_memory.md R41). -/
theorem withCell_withCell_same {m : Memory} {i : Nat} (v : Word) (h : m.wf = true) (hi : i < m.size) :
    (m.withCell i v).withCell i v = m.withCell i v := by
  have hwf := withCell_wf v hi h
  have hcells : ((m.withCell i v).withCell i v).cells = (m.withCell i v).cells := by
    refine cells_ext (withCell_wf v hi hwf) hwf (fun j => ?_)
    by_cases hj : j = i
    · subst hj
      exact (cellAt_withCell_same j v hwf).trans (cellAt_withCell_same j v h).symm
    · exact cellAt_withCell_ne _ v hj
  exact congrArg (Memory.mk m.size) hcells

@[simp] theorem new_cellAt (n i : Nat) : (Memory.new n).cellAt i = 0 := rfl

theorem new_snapshot (n : Nat) : (Memory.new n).snapshot = List.replicate n 0 := by
  have hzero : (Memory.new n).cellAt = fun _ => 0 := funext (new_cellAt n)
  rw [Memory.snapshot, hzero, List.map_const', List.length_range]
  rfl

/-- The cells of a list of words read as its words, in order. -/
theorem lookupCell_cellsFrom (ws : List Word) (i : Nat) {k : Nat} (hk : k < ws.length) :
    lookupCell (cellsFrom i ws) (i + k) = ws[k] := by
  induction ws generalizing i k with
  | nil => cases hk
  | cons w ws ih =>
    cases k with
    | zero => exact lookupCell_consCell_same w (cellsFrom_wf ws (i + 1)) (Nat.lt_succ_self i)
    | succ k =>
      have hne : i + (k + 1) ≠ i := by omega
      have hshift : i + (k + 1) = i + 1 + k := by omega
      have hk' : k < ws.length := Nat.lt_of_succ_lt_succ hk
      calc lookupCell (cellsFrom i (w :: ws)) (i + (k + 1))
          = lookupCell (cellsFrom (i + 1) ws) (i + (k + 1)) := lookupCell_consCell_ne w _ hne
        _ = ws[k] := by rw [hshift, ih (i + 1) hk']

theorem ofWords_cellAt (ws : List Word) {k : Nat} (hk : k < ws.length) : (Memory.ofWords ws).cellAt k = ws[k] := by
  simpa [Memory.cellAt, Memory.ofWords] using lookupCell_cellsFrom ws 0 hk

theorem ofWords_snapshot (ws : List Word) : (Memory.ofWords ws).snapshot = ws := by
  refine List.ext_getElem (by simp [Memory.snapshot, Memory.ofWords]) (fun k _ hk => ?_)
  simp [Memory.snapshot, ofWords_cellAt ws hk]

/-! ### Steps that raise no error -/

/-- An index pair that does not resolve has a nibble that names no register (41_move.md R78). -/
theorem invalid_index_of_resolve_error {d src : Nibble} {info : ErrorInfo} (h : resolve d src = .error info) :
    8 ≤ d.toNat ∨ 8 ≤ src.toNat := by
  rcases resolve_cases d src with ⟨rd, rs, -, -, hr⟩ | ⟨hd, -⟩ | ⟨-, hs, -⟩
  · cases hr.symm.trans h
  · exact .inl hd
  · exact .inr hs

/-- An instruction that raises the error of an invalid index does not name two registers. -/
theorem namesRegisters_eq_false_of_resolve_error {i : Instr} {d src : Nibble} {info : ErrorInfo}
    (hi : i = .movRegReg d src ∨ i = .subRegReg d src) (hr : resolve d src = .error info) :
    i.namesRegisters = false := by
  have hinv := invalid_index_of_resolve_error hr
  rcases hi with rfl | rfl <;>
    · simp only [Instr.namesRegisters, Bool.and_eq_false_iff, decide_eq_false_iff_not, Nat.not_lt]
      exact hinv

/-- A step completes when the word it would fetch names registers. -/
theorem step_next_of_namesRegisters {s : State}
    (h : halted s = false → (decode (fetchWord s)).namesRegisters = true) : ∃ t, step s = .next t := by
  rcases step_cases s with ⟨-, hs⟩ | ⟨-, _, _, -, hs⟩ | ⟨-, _, _, -, hs⟩ | ⟨hrun, d, src, info, hi, hr, -⟩
  · exact ⟨_, hs⟩
  · exact ⟨_, hs⟩
  · exact ⟨_, hs⟩
  · exact absurd ((namesRegisters_eq_false_of_resolve_error hi hr).symm.trans (h hrun)) (by decide)

/-- Every word that a fetch can reach names registers: the invariant of the safe runs. -/
def ReachableWordsNameRegisters (m : Memory) : Prop :=
  ∀ i : Nat, i < m.size → i < 65536 → (decode (m.cellAt i)).namesRegisters = true

/-- The fetch address is a 16-bit word, so it reaches no index from 65536 on (20_memory.md R43). -/
theorem fetchWord_namesRegisters {s : State} (h : ReachableWordsNameRegisters s.mem) (hrun : halted s = false) :
    (decode (fetchWord s)).namesRegisters = true :=
  h s.regs.ir.toNat ((halted_eq_false_iff s).mp hrun) s.regs.ir.isLt

theorem safeFor_of_reachableWordsNameRegisters {s : State} (h : ReachableWordsNameRegisters s.mem) (k : Nat) :
    SafeFor k s := by
  induction k generalizing s with
  | zero => exact ⟨s, rfl⟩
  | succ k ih =>
    obtain ⟨t, ht⟩ := step_next_of_namesRegisters (fetchWord_namesRegisters h)
    have hsafe : SafeFor k t := ih (by rwa [step_next_mem ht])
    rwa [SafeFor, core_run_succ_of_next k ht]

/-! ### The memory as an input of the step: it commutes with putting another memory under the registers -/

/-- The same core over another memory. -/
def State.withMem (m : Memory) (s : State) : State := { s with mem := m }

/-- The outcome of a step with the next state, if there is one, changed. -/
def mapNext (f : State → State) : Host.Outcome State Fault Refusal → Host.Outcome State Fault Refusal
  | .next t => .next (f t)
  | .fault e => .fault e
  | .refused r => .refused r

section WithMem

variable (m : Memory) (s : State)

@[simp] theorem withMem_regs : (s.withMem m).regs = s.regs := rfl
@[simp] theorem withMem_mem : (s.withMem m).mem = m := rfl
@[simp] theorem withMem_irWritten : (s.withMem m).irWritten = s.irWritten := rfl
@[simp] theorem withMem_events : (s.withMem m).events = s.events := rfl

theorem beginExecute_withMem : beginExecute (s.withMem m) = (beginExecute s).withMem m := rfl

/-- Execution reads no memory and writes none (20_memory.md R38). -/
theorem exec_withMem (i : Instr) : exec i (s.withMem m) = mapNext (State.withMem m) (exec i s) := by
  cases i with
  | movAImm | movBImm | movCImm | movDImm | subAImm | unimplemented => rfl
  | movRegReg d src => simp only [exec, execMovRegReg]; cases resolve d src <;> rfl
  | subRegReg d src => simp only [exec, execSubRegReg]; cases resolve d src <;> rfl

theorem emitExecuted_withMem (w : Word) : emitExecuted w (s.withMem m) = (emitExecuted w s).withMem m := by
  unfold emitExecuted
  cases lookupOpcode (opcodeOf w) <;> rfl

theorem advanceIr_withMem : advanceIr (s.withMem m) = (advanceIr s).withMem m := by
  unfold advanceIr
  rw [withMem_irWritten]
  split <;> rfl

theorem completeStep_withMem (w : Word) : completeStep w (s.withMem m) = (completeStep w s).withMem m := by
  simp only [completeStep, emitExecuted_withMem, advanceIr_withMem]
  rfl

end WithMem

/-- Cores that agree in everything but memory are one core over two memories. -/
theorem exists_eq_withMem {s s' : State} (hregs : s.regs = s'.regs) (hir : s.irWritten = s'.irWritten)
    (hevents : s.events = s'.events) : ∃ m, s' = s.withMem m :=
  ⟨s'.mem, by rw [State.withMem, hregs, hir, hevents]⟩

theorem halted_withMem {m : Memory} {s : State} (hsize : m.size = s.mem.size) : halted (s.withMem m) = halted s :=
  decide_eq_decide.mpr (by rw [withMem_mem, hsize]; rfl)

/-- A step sees of the memory its capacity and the fetched word, and nothing more. -/
theorem step_withMem {m : Memory} {s : State} (hsize : m.size = s.mem.size)
    (hfetch : halted s = false → fetchWord (s.withMem m) = fetchWord s) :
    step (s.withMem m) = mapNext (State.withMem m) (step s) := by
  have hh := halted_withMem hsize
  cases h : halted s with
  | true =>
    rw [step_of_halted h, step_of_halted (hh.trans h)]
    rfl
  | false =>
    simp only [step, hh, h, hfetch h, beginExecute_withMem, exec_withMem]
    cases exec (decode (fetchWord s)) (beginExecute s) with
    | next t => exact congrArg Host.Outcome.next (completeStep_withMem m t _)
    | fault f => rfl
    | refused r => rfl

theorem stepCall_withMem {m : Memory} {s : State} (hsize : m.size = s.mem.size)
    (hfetch : halted s = false → fetchWord (s.withMem m) = fetchWord s) :
    stepCall (s.withMem m) = ((stepCall s).1, (stepCall s).2.withMem m) := by
  simp only [stepCall, step_withMem hsize hfetch, halted_withMem hsize]
  cases step s <;> rfl

/-! ### Runs -/

/-- `step()` answers Halted only on a halted core (10_state.md R24). -/
theorem halted_of_stepCall {s t : State} (h : stepCall s = (.ok .halted, t)) : halted s = true := by
  cases hh : halted s with
  | true => rfl
  | false =>
    unfold stepCall at h
    cases hs : step s <;> simp [hs, hh] at h

theorem runCall_succ_of_continued {s t : State} (h : stepCall s = (.ok .continued, t)) (n : Nat) :
    runCall (n + 1) s = runCall n t := by
  simp [runCall, h]

theorem runCall_succ_of_halted {s t : State} (h : stepCall s = (.ok .halted, t)) (n : Nat) :
    runCall (n + 1) s = (.ok (some .halted), t) := by
  simp [runCall, h]

/-- IR is below 65536, so a core with that many cells runs at every address (20_memory.md R43). -/
theorem halted_of_full_range {s : State} (h : 65536 ≤ s.mem.size) : halted s = false :=
  (halted_eq_false_iff s).mpr (Nat.lt_of_lt_of_le s.regs.ir.isLt h)

/-- A step at an opcode outside the catalog: the diagnostic and the IR advance (40_cycle.md R70). -/
theorem stepCall_of_unimplemented {s : State} {op arg : Byte} (hrun : halted s = false)
    (hi : decode (fetchWord s) = .unimplemented op arg) :
    stepCall s = (.ok .continued, completeStep (fetchWord s) (emit (.unimplemented op) (beginExecute s))) := by
  have hexec : exec (decode (fetchWord s)) (beginExecute s) = .next (emit (.unimplemented op) (beginExecute s)) := by
    rw [hi]; rfl
  simp [stepCall, step_of_exec_next hrun hexec, hrun]

/-- A zero word is skipped (40_cycle.md R70). -/
theorem stepCall_of_zero_word {s : State} (hrun : halted s = false) (hw : fetchWord s = 0) :
    ∃ t, stepCall s = (.ok .continued, t) ∧ t.regs = s.regs.set .ir (s.regs.ir + 1#16) ∧ t.mem = s.mem := by
  have hi : decode (fetchWord s) = .unimplemented 0 0 := by rw [hw]; decide
  refine ⟨_, stepCall_of_unimplemented hrun hi, ?_, ?_⟩
  · simp [completeStep_regs]
  · simp

/-- From address `n - k` of `n` zero cells, `k` words are skipped and the next step finds the core halted at `n`. -/
theorem runCall_zero_memory {n : Nat} (hn : n < 65536) (k : Nat) {s : State} (hmem : s.mem = Memory.new n)
    (hir : s.regs.ir.toNat + k = n) :
    ∃ t, runCall (k + 1) s = (.ok (some .halted), t) ∧
      t.regs = { s.regs with ir := BitVec.ofNat 16 n } ∧ t.mem = s.mem := by
  have hsize : s.mem.size = n := by rw [hmem]; rfl
  induction k generalizing s with
  | zero =>
    have hend : s.mem.size ≤ s.regs.ir.toNat := by omega
    have hregs : s.regs.ir = BitVec.ofNat 16 n := by rw [← hir, Nat.add_zero, BitVec.ofNat_toNat, BitVec.setWidth_eq]
    refine ⟨_, runCall_succ_of_halted (stepCall_of_halted hend) 0, ?_, rfl⟩
    rw [← hregs]
    rfl
  | succ k ih =>
    have hrun : halted s = false := (halted_eq_false_iff s).mpr (by omega)
    have hzero : fetchWord s = 0 := by rw [fetchWord, hmem, new_cellAt]
    obtain ⟨u, hu, huregs, humem⟩ := stepCall_of_zero_word hrun hzero
    have huir : u.regs.ir.toNat + k = n := by
      have hone : (1#16).toNat = 1 := rfl
      rw [huregs, set_ir_same, BitVec.toNat_add_of_lt (by omega)]
      omega
    obtain ⟨t, ht, htregs, htmem⟩ := ih (humem.trans hmem) huir (by rw [humem, hsize])
    refine ⟨t, (runCall_succ_of_continued hu (k + 1)).trans ht, ?_, htmem.trans humem⟩
    rw [htregs, huregs]
    rfl

end Sys2Proof.Machine

/-! ## The statements of the memory family -/

namespace Sys2Proof.Machine

/-- Settles O15: the session leaves the capacity, and its last write to the index in the cell. -/
theorem readsReturnTheLastWrite : Obligations.ReadsReturnTheLastWrite := by
  intro xs s i h hi
  have hi' : i < (session xs s).mem.size := by rwa [session_mem_size]
  rw [transact_read_of_lt hi', session_cellAt xs h hi]

/-- Settles O49: no step writes memory, so the condition on its words is an invariant of the run. -/
theorem memoryOfValidIndicesIsSafe : Obligations.MemoryOfValidIndicesIsSafe :=
  fun _ h k => safeFor_of_reachableWordsNameRegisters h k

/-- Settles O13. -/
theorem hostWriteStoresOneWord : Obligations.HostWriteStoresOneWord := by
  intro s i v h
  refine ⟨fun hi => ⟨_, transact_write_of_lt v hi, ?_, ?_, rfl, rfl, rfl, rfl⟩, transact_write_of_le v⟩
  · exact cellAt_withCell_same i v h
  · exact fun j hj => cellAt_withCell_ne s.mem v hj

/-- Settles O14: in bounds by the uniqueness of the canonical form; out of bounds neither write does anything. -/
theorem hostWriteIsIdempotent : Obligations.HostWriteIsIdempotent := by
  intro s i v h
  rcases Nat.lt_or_ge i s.mem.size with hi | hi
  · have hi' : i < (s.withMem (s.mem.withCell i v)).mem.size := hi
    rw [transact_write_of_lt v hi]
    exact (congrArg Prod.snd (transact_write_of_lt v hi')).trans
      (congrArg (State.withMem · s) (withCell_withCell_same v h hi))
  · simp only [transact_write_of_le v hi]

/-- Settles O17. -/
theorem constructedMemoryContents : Obligations.ConstructedMemoryContents :=
  ⟨fun n => ⟨rfl, new_snapshot n⟩, fun ws => ⟨rfl, ofWords_snapshot ws⟩, rfl, new_snapshot _⟩

/-- Settles O38: the second core is the first over another memory, and the step commutes with that exchange. -/
theorem stepReadsOnlyTheFetchedWord : Obligations.StepReadsOnlyTheFetchedWord := by
  intro s s' hregs hsize hir hevents hfetch
  obtain ⟨m, rfl⟩ := exists_eq_withMem hregs hir hevents
  have hcall : stepCall (s.withMem m) = ((stepCall s).1, (stepCall s).2.withMem m) :=
    stepCall_withMem hsize.symm fun hrun => (hfetch ((halted_eq_false_iff s).mp hrun)).symm
  rw [hcall]
  exact ⟨rfl, rfl, rfl, rfl, stepCall_mem s, rfl⟩

/-- Settles O46, by induction on the fuel: no step changes the capacity, and at that capacity none is Halted. -/
theorem fullRangeMemoryNeverHalts : Obligations.FullRangeMemoryNeverHalts := by
  intro s hsize n
  induction n generalizing s with
  | zero => simp [runCall]
  | succ n ih =>
    unfold runCall
    split
    next t ht =>
      have hmem : t.mem = s.mem := by rw [← stepCall_mem s, ht]
      exact ih t (by rwa [hmem])
    next t ht => exact absurd (halted_of_stepCall ht) (by simp [halted_of_full_range hsize])
    next => simp
    next => simp

/-- Settles O48, from address 0 of the zero memory. -/
theorem zeroMemoryRunsToItsEnd : Obligations.ZeroMemoryRunsToItsEnd := by
  intro n hn
  have hstart : (construct (.size n)).regs.ir.toNat + n = n := Nat.zero_add n
  exact runCall_zero_memory hn n rfl hstart

/-- Settles O16. -/
theorem fetchSeesTheHostWrite : Obligations.FetchSeesTheHostWrite := by
  intro s v h hrun
  rw [transact_write_of_lt v hrun]
  exact ⟨hrun, cellAt_withCell_same _ v h⟩

end Sys2Proof.Machine

/-! ## Proofs of the encoding family (30_encoding.md): the rules that its statements share -/

namespace Sys2Proof

/-! ### Joining and splitting the fields of a word -/

@[simp] theorem opcodeOf_append_argumentOf (w : Word) : opcodeOf w ++ argumentOf w = w :=
  BitVec.extractLsb'_append_extractLsb'

@[simp] theorem destOf_append_srcOf (arg : Byte) : destOf arg ++ srcOf arg = arg :=
  BitVec.extractLsb'_append_extractLsb'

/-- An RR argument as `(d << 4) | s`, in any width that it is put in (30_encoding.md R64). -/
theorem setWidth_nibbles (k : Nat) (d s : Nibble) :
    (d ++ s).setWidth k = (d.setWidth k <<< 4) ||| s.setWidth k :=
  BitVec.setWidth_append_eq_shiftLeft_setWidth_or

/-- A word as `(opcode << 8) | argument` (30_encoding.md R64). -/
theorem word_eq_shiftLeft_or (op arg : Byte) : op ++ arg = (op.setWidth 16 <<< 8) ||| arg.setWidth 16 :=
  (BitVec.setWidth_eq (op ++ arg)).symm.trans BitVec.setWidth_append_eq_shiftLeft_setWidth_or

theorem opcodeOf_toNat (w : Word) : (opcodeOf w).toNat = w.toNat >>> 8 := by
  have hw := w.isLt
  rw [opcodeOf, BitVec.extractLsb'_toNat, Nat.shiftRight_eq_div_pow]
  omega

theorem argumentOf_toNat (w : Word) : (argumentOf w).toNat = w.toNat &&& 0xFF := by
  rw [argumentOf, BitVec.extractLsb'_toNat, Nat.shiftRight_zero]
  exact (Nat.and_two_pow_sub_one_eq_mod w.toNat 8).symm

/-! ### The rows of the catalog -/

/-- The instruction that a row of the catalog makes of an argument: the argument as the immediate, or its two nibbles
(30_encoding.md R53, R54). -/
def Mnemonic.instr (m : Mnemonic) (arg : Byte) : Instr :=
  match m with
  | .movAImm => .movAImm arg
  | .movBImm => .movBImm arg
  | .movCImm => .movCImm arg
  | .movDImm => .movDImm arg
  | .movRegReg => .movRegReg (destOf arg) (srcOf arg)
  | .subAImm => .subAImm arg
  | .subRegReg => .subRegReg (destOf arg) (srcOf arg)

theorem Mnemonic.instr_wf (m : Mnemonic) (arg : Byte) : (m.instr arg).wf = true := by
  cases m <;> rfl

/-- No row of the catalog loses a bit of the word. -/
theorem Mnemonic.encode_instr (m : Mnemonic) (arg : Byte) : encode (m.instr arg) = m.opcode ++ arg := by
  cases m with
  | movRegReg | subRegReg => exact congrArg (_ ++ ·) (destOf_append_srcOf arg)
  | movAImm | movBImm | movCImm | movDImm | subAImm => rfl

/-- The opcodes outside the catalog, by the seven that it holds (30_encoding.md R56). -/
theorem lookupOpcode_eq_none_iff_not_mem (op : Byte) :
    lookupOpcode op = none ↔ op ∉ [0x02#8, 0x03#8, 0x04#8, 0x05#8, 0x06#8, 0x1A#8, 0x1B#8] := by
  simp [lookupOpcode, catalog, Mnemonic.opcode, eq_comm (b := op)]

/-- The ranges of the last row of 30_encoding.md R56 are exactly the opcodes outside the catalog. -/
theorem lookupOpcode_eq_none_iff_isUnimplementedOpcode (op : Byte) :
    lookupOpcode op = none ↔ isUnimplementedOpcode op = true := by
  rw [lookupOpcode_eq_none_iff_not_mem]
  simp only [isUnimplementedOpcode, Bool.or_eq_true, Bool.and_eq_true, decide_eq_true_eq, List.mem_cons,
    List.not_mem_nil, or_false, ← BitVec.toNat_inj, BitVec.reduceToNat]
  omega

/-! ### The decoder by the answer of the dispatch table -/

theorem decode_of_lookupOpcode_some {w : Word} {m : Mnemonic} (h : lookupOpcode (opcodeOf w) = some m) :
    decode w = m.instr (argumentOf w) := by
  cases m <;> simp only [decode, h] <;> rfl

theorem decode_of_lookupOpcode_none {w : Word} (h : lookupOpcode (opcodeOf w) = none) :
    decode w = .unimplemented (opcodeOf w) (argumentOf w) := by
  simp only [decode, h]

theorem decode_opcode_append (m : Mnemonic) (arg : Byte) : decode (m.opcode ++ arg) = m.instr arg := by
  have hm : lookupOpcode (opcodeOf (m.opcode ++ arg)) = some m := by simp
  rw [decode_of_lookupOpcode_some hm, argumentOf_append]

theorem decode_append_of_lookupOpcode_none {op : Byte} (h : lookupOpcode op = none) (arg : Byte) :
    decode (op ++ arg) = .unimplemented op arg := by
  have hop : lookupOpcode (opcodeOf (op ++ arg)) = none := by rwa [opcodeOf_append]
  rw [decode_of_lookupOpcode_none hop, opcodeOf_append, argumentOf_append]

/-- A well-formed instruction is a row of the catalog at some argument, or has an opcode outside the catalog. -/
theorem wf_cases {i : Instr} (h : i.wf = true) :
    (∃ (m : Mnemonic) (arg : Byte), i = m.instr arg) ∨
      ∃ op arg, i = .unimplemented op arg ∧ lookupOpcode op = none := by
  cases i with
  | movAImm imm => exact .inl ⟨.movAImm, imm, rfl⟩
  | movBImm imm => exact .inl ⟨.movBImm, imm, rfl⟩
  | movCImm imm => exact .inl ⟨.movCImm, imm, rfl⟩
  | movDImm imm => exact .inl ⟨.movDImm, imm, rfl⟩
  | movRegReg d s => exact .inl ⟨.movRegReg, d ++ s, by simp [Mnemonic.instr]⟩
  | subAImm imm => exact .inl ⟨.subAImm, imm, rfl⟩
  | subRegReg d s => exact .inl ⟨.subRegReg, d ++ s, by simp [Mnemonic.instr]⟩
  | unimplemented op arg =>
    exact .inr ⟨op, arg, rfl, (lookupOpcode_eq_none_iff_isUnimplementedOpcode op).mpr h⟩

/-- Decoding undoes encoding. -/
theorem decode_encode {i : Instr} (h : i.wf = true) : decode (encode i) = i := by
  rcases wf_cases h with ⟨m, arg, rfl⟩ | ⟨op, arg, rfl, hop⟩
  · rw [Mnemonic.encode_instr, decode_opcode_append]
  · exact decode_append_of_lookupOpcode_none hop arg

end Sys2Proof

namespace Sys2Proof.Machine

/-! ### The assembler -/

/-- `base | n` with the base of an opcode is that opcode's word (30_encoding.md R62). -/
theorem withImmediate_of_le (op : Byte) {n : Nat} (h : n ≤ 255) :
    withImmediate (op.setWidth 16 <<< 8) n = some (op ++ BitVec.ofNat 8 n) := by
  have hn : (BitVec.ofNat 8 n).setWidth 16 = BitVec.ofNat 16 n :=
    BitVec.setWidth_ofNat_of_le_of_lt (by decide) (by omega)
  rw [withImmediate, if_pos h, word_eq_shiftLeft_or, hn]

theorem withImmediate_of_gt (base : Word) {n : Nat} (h : 255 < n) : withImmediate base n = none :=
  if_neg (Nat.not_le.mpr h)

/-- A line with an immediate above 255 is no instruction, whether or not its register has an opcode base. -/
theorem bind_withImmediate_of_gt (base : Option Word) {n : Nat} (h : 255 < n) :
    base.bind (withImmediate · n) = none := by
  cases base with
  | none => rfl
  | some b => exact withImmediate_of_gt b h

theorem subImmBase_of_ne_a {r : Reg} (h : r ≠ .a) : subImmBase r = none := by
  cases r with
  | a => exact absurd rfl h
  | b | c | d | ca | ir | z | lr => rfl

/-- `base | (idx(rd) << 4) | idx(rs)` with the base of an opcode is that opcode's word (30_encoding.md R62). -/
theorem withRegisters_eq (op : Byte) (rd rs : Reg) :
    withRegisters (op.setWidth 16 <<< 8) rd rs = op ++ (regIndex rd ++ regIndex rs) := by
  rw [withRegisters, word_eq_shiftLeft_or, setWidth_nibbles, BitVec.or_assoc]

/-! ### Immediate moves -/

/-- The effect of an immediate move on a register other than IR: its value, its frame and the signal (41_move.md R79 to
R82). -/
theorem writeReg_zext16 {r : Reg} (hr : r ≠ .ir) (imm : Byte) (s : State) :
    ((writeReg r (zext16 imm) s).regs.get r).toNat = imm.toNat ∧
      OnlyRegisterMayDiffer r s (writeReg r (zext16 imm) s) ∧
      (writeReg r (zext16 imm) s).irWritten = s.irWritten := by
  refine ⟨?_, writeReg_onlyRegisterMayDiffer r _ s, by simp [hr]⟩
  rw [writeReg_regs, get_set_same, zext16, BitVec.toNat_setWidth_of_le (by decide)]

end Sys2Proof.Machine

/-! ## The statements of the encoding family -/

namespace Sys2Proof.Machine

/-- Settles O1: the decoder takes the one word and gives the instruction back. -/
theorem decodeEncodeRoundTrip : Obligations.DecodeEncodeRoundTrip := by
  intro i rest h
  have hround := decode_encode h
  rw [encodeWords, List.singleton_append, decodeWords, hround]

/-- Settles O2, by whether the catalog has the word's opcode. -/
theorem encodeDecodeRoundTrip : Obligations.EncodeDecodeRoundTrip := by
  intro w
  cases h : lookupOpcode (opcodeOf w) with
  | some m =>
    rw [decode_of_lookupOpcode_some h]
    refine ⟨m.instr_wf _, ?_⟩
    rw [Mnemonic.encode_instr, opcode_of_lookupOpcode h, opcodeOf_append_argumentOf]
  | none =>
    rw [decode_of_lookupOpcode_none h]
    exact ⟨(lookupOpcode_eq_none_iff_isUnimplementedOpcode _).mp h, opcodeOf_append_argumentOf w⟩

/-- Settles O5: an opcode is one of the seven of the catalog or differs from each. -/
theorem opcodeSelectsOperation : Obligations.OpcodeSelectsOperation := by
  intro op arg
  cases h : lookupOpcode op with
  | some m =>
    obtain rfl := opcode_of_lookupOpcode h
    rw [decode_opcode_append]
    cases m <;> rfl
  | none =>
    have hop := (lookupOpcode_eq_none_iff_not_mem op).mp h
    simp only [List.mem_cons, not_or] at hop
    simp [decode_append_of_lookupOpcode_none h, hop]

/-- Settles O6. -/
theorem wordAssembly : Obligations.WordAssembly := by
  have hargument (d s : Nibble) : d ++ s = (d.setWidth 8 <<< 4) ||| s.setWidth 8 :=
    (BitVec.setWidth_eq (d ++ s)).symm.trans (setWidth_nibbles 8 d s)
  exact ⟨fun _ => word_eq_shiftLeft_or _ _, hargument, hargument⟩

/-- Settles O7: each opcode base of the table is its opcode shifted left by 8. -/
theorem assemblyLinesGiveTheirWords : Obligations.AssemblyLinesGiveTheirWords := by
  refine ⟨fun n hn => ?_, fun rd n hn => ?_, fun rd n hrd => ?_, fun rd n hrd => ?_, fun rd rs => ?_, fun rd rs => ?_,
    fun w => rfl⟩
  · exact ⟨withImmediate_of_le Mnemonic.movAImm.opcode hn, withImmediate_of_le Mnemonic.movBImm.opcode hn,
      withImmediate_of_le Mnemonic.movCImm.opcode hn, withImmediate_of_le Mnemonic.movDImm.opcode hn,
      withImmediate_of_le Mnemonic.subAImm.opcode hn⟩
  · exact ⟨bind_withImmediate_of_gt _ hn, bind_withImmediate_of_gt _ hn⟩
  · rcases hrd with rfl | rfl | rfl | rfl <;> rfl
  · rw [assemble, subImmBase_of_ne_a hrd, Option.bind_none]
  · exact congrArg some (withRegisters_eq Mnemonic.movRegReg.opcode rd rs)
  · exact congrArg some (withRegisters_eq Mnemonic.subRegReg.opcode rd rs)

/-- Settles O3. -/
theorem writtenOutWordsDecode : Obligations.WrittenOutWordsDecode := by
  unfold Obligations.WrittenOutWordsDecode
  decide

/-- Settles O4. -/
theorem decodeSplitsEveryWord : Obligations.DecodeSplitsEveryWord :=
  fun w _ => ⟨opcodeOf_toNat w, argumentOf_toNat w, decode w, rfl⟩

/-- Settles O22: each of the four registers is not IR. -/
theorem immediateMovesComplete : Obligations.ImmediateMovesComplete := by
  intro imm s
  exact ⟨⟨_, rfl, writeReg_zext16 (r := .a) (by decide) imm s⟩, ⟨_, rfl, writeReg_zext16 (r := .b) (by decide) imm s⟩,
    ⟨_, rfl, writeReg_zext16 (r := .c) (by decide) imm s⟩, ⟨_, rfl, writeReg_zext16 (r := .d) (by decide) imm s⟩⟩

/-- Settles O26. -/
theorem unimplementedCompletes : Obligations.UnimplementedCompletes :=
  fun _ _ _ => rfl

end Sys2Proof.Machine

/-! ## Proofs of the cycle family (40_cycle.md): the rules that its statements share -/

namespace Sys2Proof

/-! ### The dispatch table by the catalog's opcodes -/

theorem lookupOpcode_eq_some_iff (op : Byte) (m : Mnemonic) : lookupOpcode op = some m ↔ m.opcode = op := by
  constructor
  · exact opcode_of_lookupOpcode
  · rintro rfl
    exact lookupOpcode_opcode m

theorem lookupOpcode_eq_none_iff_forall_ne (op : Byte) : lookupOpcode op = none ↔ ∀ m : Mnemonic, m.opcode ≠ op := by
  simp only [Option.eq_none_iff_forall_ne_some, ne_eq, lookupOpcode_eq_some_iff]

end Sys2Proof

namespace Sys2Proof.Machine

/-! ### What a running step adds to execution -/

/-- What the completion of an instruction word sends on the event output: the `Executed` event of an implemented opcode
(40_cycle.md R74). -/
def executedEvents (w : Word) : List Event :=
  match lookupOpcode (opcodeOf w) with
  | some m => [.executed (opcodeOf w) (argumentOf w) m]
  | none => []

theorem executedEvents_of_some {w : Word} {m : Mnemonic} (h : lookupOpcode (opcodeOf w) = some m) :
    executedEvents w = [.executed (opcodeOf w) (argumentOf w) m] := by
  simp only [executedEvents, h]

theorem executedEvents_of_none {w : Word} (h : lookupOpcode (opcodeOf w) = none) : executedEvents w = [] := by
  simp only [executedEvents, h]

theorem emitExecuted_events (w : Word) (s : State) : (emitExecuted w s).events = s.events ++ executedEvents w := by
  rcases emitExecuted_cases w s with ⟨m, hm, h⟩ | ⟨hm, h⟩
  · rw [h, executedEvents_of_some hm, emit_events]
  · rw [h, executedEvents_of_none hm, List.append_nil]

/-- The completion of an instruction, field by field (40_cycle.md R65). -/
theorem completeStep_eq (w : Word) (s : State) :
    completeStep w s =
      { regs := if s.irWritten then s.regs else { s.regs with ir := s.regs.ir + 1 }
        mem := s.mem
        irWritten := false
        events := s.events ++ executedEvents w } := by
  rw [State.mk.injEq]
  exact ⟨completeStep_regs w s, completeStep_mem w s, completeStep_irWritten w s,
    (completeStep_events w s).trans (emitExecuted_events w s)⟩

/-- IR after the completion of an instruction that did not write it (40_cycle.md R72). -/
theorem completeStep_ir_of_not_written {s : State} (w : Word) (h : s.irWritten = false) :
    (completeStep w s).regs.ir.toNat = (s.regs.ir.toNat + 1) % 65536 := by
  simp [completeStep_eq, h, BitVec.toNat_add]

/-- IR after the completion of an instruction that wrote it (40_cycle.md R71). -/
theorem completeStep_ir_of_written {s : State} (w : Word) (h : s.irWritten = true) :
    (completeStep w s).regs.ir = s.regs.ir := by
  simp [completeStep_eq, h]

/-- A running step is execution, completed when it answers a next state (40_cycle.md R65). -/
theorem step_of_running {s : State} (h : halted s = false) :
    step s = mapNext (completeStep (fetchWord s)) (exec (decode (fetchWord s)) (beginExecute s)) := by
  simp only [step, h]
  cases exec (decode (fetchWord s)) (beginExecute s) <;> rfl

/-! ### The answers of `step()` -/

theorem stepCall_of_exec_next {s u : State} (h : halted s = false)
    (hu : exec (decode (fetchWord s)) (beginExecute s) = .next u) :
    stepCall s = (.ok .continued, completeStep (fetchWord s) u) := by
  simp [stepCall, step_of_exec_next h hu, h]

theorem stepCall_of_exec_fault {s : State} {f : Fault} (h : halted s = false)
    (hf : exec (decode (fetchWord s)) (beginExecute s) = .fault f) : stepCall s = (.ok (.error f.record), s) := by
  simp [stepCall, step_of_exec_fault h hf]

/-- Everything `step()` can answer: Halted, Continued with the completion of an executed instruction, or the error of
the instruction with the state before it (60_exceptions.md R94, R97). -/
theorem stepCall_cases (s : State) :
    stepCall s = (.ok .halted, haltedStep s) ∨
    (∃ u, exec (decode (fetchWord s)) (beginExecute s) = .next u ∧
      stepCall s = (.ok .continued, completeStep (fetchWord s) u)) ∨
    (∃ f : Fault, stepCall s = (.ok (.error f.record), s)) := by
  cases h : halted s with
  | true => exact .inl (stepCall_of_halted ((halted_eq_true_iff s).mp h))
  | false =>
    rcases exec_cases (decode (fetchWord s)) (beginExecute s) with
      ⟨rd, v, he⟩ | ⟨op, arg, -, he⟩ | ⟨d, src, info, -, -, he⟩
    · exact .inr (.inl ⟨_, he, stepCall_of_exec_next h he⟩)
    · exact .inr (.inl ⟨_, he, stepCall_of_exec_next h he⟩)
    · exact .inr (.inr ⟨_, stepCall_of_exec_fault h he⟩)

/-! ### The event of a completed instruction -/

/-- An instruction of the catalog emits nothing while it executes: its event comes with the completion. -/
theorem exec_instr_events {m : Mnemonic} {arg : Byte} {s u : State} (hu : exec (m.instr arg) s = .next u) :
    u.events = s.events := by
  rcases exec_cases (m.instr arg) s with ⟨rd, v, he⟩ | ⟨op, arg', hi, -⟩ | ⟨d, src, info, -, -, he⟩
  · cases he.symm.trans hu
    rfl
  · cases m <;> cases hi
  · cases he.symm.trans hu

/-- The completion of a word in the catalog appends its `Executed` event (40_cycle.md R74). -/
theorem completeStep_events_of_some {w : Word} {m : Mnemonic} {s u : State}
    (hm : lookupOpcode (opcodeOf w) = some m) (hu : exec (decode w) (beginExecute s) = .next u) :
    (completeStep w u).events = s.events ++ [.executed (opcodeOf w) (argumentOf w) m] := by
  rw [decode_of_lookupOpcode_some hm] at hu
  rw [completeStep_events, emitExecuted_events, exec_instr_events hu, executedEvents_of_some hm,
    beginExecute_events]

/-- The completion of a word outside the catalog appends its diagnostic alone (40_cycle.md R70, R74). -/
theorem completeStep_events_of_none {w : Word} {s u : State}
    (hw : lookupOpcode (opcodeOf w) = none) (hu : exec (decode w) (beginExecute s) = .next u) :
    (completeStep w u).events = s.events ++ [.unimplemented (opcodeOf w)] := by
  rw [decode_of_lookupOpcode_none hw] at hu
  cases hu
  rw [completeStep_events, emitExecuted_events, executedEvents_of_none hw, List.append_nil, emit_events,
    beginExecute_events]

/-! ### The past events as an input of the step: it appends to them and reads none -/

/-- The same core with more events before those it has emitted. -/
def State.withPast (es : List Event) (s : State) : State := { s with events := es ++ s.events }

/-- The same core with nothing emitted yet. -/
def State.silent (s : State) : State := { s with events := [] }

section WithPast

variable (es : List Event) (s : State)

@[simp] theorem withPast_regs : (s.withPast es).regs = s.regs := rfl
@[simp] theorem withPast_mem : (s.withPast es).mem = s.mem := rfl
@[simp] theorem withPast_irWritten : (s.withPast es).irWritten = s.irWritten := rfl
@[simp] theorem withPast_events : (s.withPast es).events = es ++ s.events := rfl

/-- A core with other past events is the silent core with those before it. -/
theorem silent_withPast : s.silent.withPast es = { s with events := es } := by
  simp [State.silent, State.withPast]

theorem halted_withPast : halted (s.withPast es) = halted s := rfl
theorem fetchWord_withPast : fetchWord (s.withPast es) = fetchWord s := rfl
theorem beginExecute_withPast : beginExecute (s.withPast es) = (beginExecute s).withPast es := rfl

theorem emit_withPast (e : Event) : emit e (s.withPast es) = (emit e s).withPast es := by
  simp [emit, State.withPast]

theorem exec_withPast (i : Instr) : exec i (s.withPast es) = mapNext (State.withPast es) (exec i s) := by
  cases i with
  | movAImm | movBImm | movCImm | movDImm | subAImm => rfl
  | unimplemented op arg => exact congrArg Host.Outcome.next (emit_withPast es s _)
  | movRegReg d src => simp only [exec, execMovRegReg]; cases resolve d src <;> rfl
  | subRegReg d src => simp only [exec, execSubRegReg]; cases resolve d src <;> rfl

theorem completeStep_withPast (w : Word) : completeStep w (s.withPast es) = (completeStep w s).withPast es := by
  rw [completeStep_eq, completeStep_eq, State.withPast, State.withPast, List.append_assoc]

theorem step_withPast : step (s.withPast es) = mapNext (State.withPast es) (step s) := by
  cases h : halted s with
  | true =>
    rw [step_of_halted h, step_of_halted ((halted_withPast es s).trans h)]
    exact congrArg Host.Outcome.next (emit_withPast es s _)
  | false =>
    rw [step_of_running h, step_of_running ((halted_withPast es s).trans h), fetchWord_withPast, beginExecute_withPast,
      exec_withPast]
    cases exec (decode (fetchWord s)) (beginExecute s) with
    | next u => exact congrArg Host.Outcome.next (completeStep_withPast es u _)
    | fault f => rfl
    | refused r => rfl

theorem stepCall_withPast : stepCall (s.withPast es) = ((stepCall s).1, (stepCall s).2.withPast es) := by
  simp only [stepCall, step_withPast, halted_withPast]
  cases step s <;> rfl

end WithPast

/-- `step()` with other past events: the answer of the silent core, with those events before it. -/
theorem stepCall_with_events (es : List Event) (s : State) :
    stepCall { s with events := es } = ((stepCall s.silent).1, (stepCall s.silent).2.withPast es) := by
  rw [← silent_withPast, stepCall_withPast]

/-! ### The result of a run -/

theorem runCall_succ_of_error {s t : State} {record : ErrorRecord} (h : stepCall s = (.ok (.error record), t))
    (n : Nat) : runCall (n + 1) s = (.ok (some (.error record)), t) := by
  simp [runCall, h]

/-- Where a run's result comes from: the run that follows a Continued step, or the first step (40_cycle.md R75). -/
theorem runCall_succ_result_cases {n : Nat} {s t : State} {o : RunOutcome}
    (h : runCall (n + 1) s = (.ok (some o), t)) :
    (∃ u, stepCall s = (.ok .continued, u) ∧ runCall n u = (.ok (some o), t)) ∨
    (o = .halted ∧ stepCall s = (.ok .halted, t)) ∨
    (∃ record, o = .error record ∧ stepCall s = (.ok (.error record), t)) := by
  rcases stepCall_cases s with hs | ⟨u, -, hs⟩ | ⟨f, hs⟩
  · cases (runCall_succ_of_halted hs n).symm.trans h
    exact .inr (.inl ⟨rfl, hs⟩)
  · exact .inl ⟨_, hs, (runCall_succ_of_continued hs n).symm.trans h⟩
  · cases (runCall_succ_of_error hs n).symm.trans h
    exact .inr (.inr ⟨_, rfl, hs⟩)

theorem runCall_add_of_result {n : Nat} (k : Nat) {s t : State} {o : RunOutcome}
    (h : runCall n s = (.ok (some o), t)) : runCall (n + k) s = (.ok (some o), t) := by
  induction n generalizing s with
  | zero => cases h
  | succ n ih =>
    rw [Nat.succ_add]
    rcases runCall_succ_result_cases h with ⟨u, hu, hrest⟩ | ⟨rfl, hs⟩ | ⟨record, rfl, hs⟩
    · rw [runCall_succ_of_continued hu, ih hrest]
    · exact runCall_succ_of_halted hs _
    · exact runCall_succ_of_error hs _

theorem stepCall_halted_out_of_bounds {s t : State} (h : stepCall s = (.ok .halted, t)) :
    t.mem.size ≤ t.regs.ir.toNat := by
  have hs := (halted_eq_true_iff s).mp (halted_of_stepCall h)
  cases (stepCall_of_halted hs).symm.trans h
  exact hs

theorem runCall_halted_out_of_bounds {n : Nat} {s t : State} (h : runCall n s = (.ok (some .halted), t)) :
    t.mem.size ≤ t.regs.ir.toNat := by
  induction n generalizing s with
  | zero => cases h
  | succ n ih =>
    rcases runCall_succ_result_cases h with ⟨u, -, hrest⟩ | ⟨-, hs⟩ | ⟨record, hne, -⟩
    · exact ih hrest
    · exact stepCall_halted_out_of_bounds hs
    · cases hne

end Sys2Proof.Machine

/-! ## The statements of the cycle family -/

namespace Sys2Proof.Machine

/-- Settles O30. -/
theorem haltedStepIsNoOp : Obligations.HaltedStepIsNoOp := by
  intro s h
  have hcall := stepCall_of_halted h
  exact ⟨step_of_halted ((halted_eq_true_iff s).mpr h), hcall, runCall_succ_of_halted hcall⟩

/-- Settles O35: the decoder gives the catch-all, whose completion has no event of its own. -/
theorem stepOfUnimplementedOpcode : Obligations.StepOfUnimplementedOpcode := by
  intro s op arg hrun hword hop
  have hw : fetchWord s = op ++ arg := hword
  have hlookup := (lookupOpcode_eq_none_iff_not_mem op).mpr hop
  have hnone : lookupOpcode (opcodeOf (op ++ arg)) = none := by rwa [opcodeOf_append]
  have hi : decode (fetchWord s) = .unimplemented op arg := by rw [hw, decode_append_of_lookupOpcode_none hlookup]
  rw [stepCall_of_unimplemented ((halted_eq_false_iff s).mpr hrun) hi, hw, completeStep_eq,
    executedEvents_of_none hnone, List.append_nil]
  rfl

/-- Settles O40, by whether execution raised the signal, which it does exactly when IR is the destination. -/
theorem irAdvancesUnlessWritten : Obligations.IrAdvancesUnlessWritten := by
  intro s t hrun h
  rcases step_next_cases h with ⟨hhalt, -⟩ | ⟨-, u, hu, rfl⟩
  · have hout := (halted_eq_true_iff s).mp hhalt
    exact absurd hrun (Nat.not_lt.mpr hout)
  · have hsignal := exec_next_irWritten_iff hu
    simp only [beginExecute_irWritten, Bool.false_eq_true, false_or] at hsignal
    refine ⟨fun hdest => ?_, fun hdest u' hu' => ?_⟩
    · have hclear : u.irWritten = false := Bool.eq_false_iff.mpr (mt hsignal.mp hdest)
      have hir : u.regs.ir = s.regs.ir := exec_next_get_of_ne (s := beginExecute s) (r := .ir) hu hdest
      rw [completeStep_ir_of_not_written _ hclear, hir]
    · cases hu.symm.trans hu'
      exact completeStep_ir_of_written _ (hsignal.mpr hdest)

/-- Settles O41, by the answers of `step()`; and with other past events the silent core's answer is the same. -/
theorem oneEventPerStep : Obligations.OneEventPerStep := by
  intro s
  have hpast : ∀ es : List Event, (stepCall { s with events := es }).1 = (stepCall s).1 ∧
      (stepCall { s with events := es }).2.regs = (stepCall s).2.regs ∧
      (stepCall { s with events := es }).2.mem = (stepCall s).2.mem := by
    intro es
    have hs : stepCall s = ((stepCall s.silent).1, (stepCall s.silent).2.withPast s.events) :=
      stepCall_with_events s.events s
    rw [stepCall_with_events es s, hs]
    exact ⟨rfl, rfl, rfl⟩
  rcases stepCall_cases s with hs | ⟨u, hu, hs⟩ | ⟨f, hs⟩ <;> rw [hs] at hpast ⊢
  · exact ⟨fun _ => rfl, nofun, nofun, hpast⟩
  · refine ⟨nofun, fun _ => ⟨fun m hm => ?_, fun hne => ?_⟩, nofun, hpast⟩
    · exact completeStep_events_of_some ((lookupOpcode_eq_some_iff _ m).mpr hm) hu
    · exact completeStep_events_of_none ((lookupOpcode_eq_none_iff_forall_ne _).mpr hne) hu
  · exact ⟨nofun, nofun, fun _ _ => rfl, hpast⟩

/-- Settles O44, by induction on the fuel that gave the result. -/
theorem runResultIsStable : Obligations.RunResultIsStable := by
  intro n k s t o h
  refine ⟨runCall_add_of_result k h, ?_⟩
  rintro rfl
  exact runCall_halted_out_of_bounds h

/-- Settles O29: the word is well formed by the round trip, and each outcome of execution is the step's. -/
theorem stepRunsTheDecodedInstruction : Obligations.StepRunsTheDecodedInstruction := by
  intro s w hrun hword
  obtain rfl : fetchWord s = w := hword
  obtain ⟨hwf, -⟩ := encodeDecodeRoundTrip (fetchWord s)
  refine ⟨hwf, ?_⟩
  rw [step_of_running ((halted_eq_false_iff s).mpr hrun), beginExecute]
  cases exec (decode (fetchWord s)) { s with irWritten := false } with
  | next t => exact congrArg Host.Outcome.next (completeStep_eq (fetchWord s) t)
  | fault f => rfl
  | refused r => rfl

end Sys2Proof.Machine

/-! ## Proofs of the move family (41_move.md): the rules that its statements share -/

namespace Sys2Proof

/-! ### Format RR words -/

/-- A format RR word as `(opcode << 8) | (d << 4) | s` (30_encoding.md R64). -/
theorem word_eq_nibbles (op : Byte) (d s : Nibble) :
    op ++ (d ++ s) = (op.setWidth 16 <<< 8) ||| (d.setWidth 16 <<< 4) ||| s.setWidth 16 := by
  rw [word_eq_shiftLeft_or, setWidth_nibbles, BitVec.or_assoc]

@[simp] theorem Mnemonic.instr_movRegReg (d s : Nibble) : Mnemonic.movRegReg.instr (d ++ s) = .movRegReg d s := by
  simp [Mnemonic.instr]

end Sys2Proof

namespace Sys2Proof.Machine

@[simp] theorem set_get_same (f : RegFile) (r : Reg) : f.set r (f.get r) = f := by
  cases r <;> rfl

/-! ### Indices that name no register -/

theorem regIndex_toNat_lt (r : Reg) : (regIndex r).toNat < 8 := by
  cases r <;> decide

theorem resolve_of_invalid_dest {d : Nibble} (hd : 8 ≤ d.toNat) (src : Nibble) :
    resolve d src = .error { index := d, field := .dest } := by
  simp only [resolve, (regOfIndex_eq_none_iff d).mpr hd]

theorem resolve_of_invalid_src {d src : Nibble} (hd : d.toNat < 8) (hs : 8 ≤ src.toNat) :
    resolve d src = .error { index := src, field := .src } := by
  rcases resolve_cases d src with ⟨rd, rs, -, rfl, -⟩ | ⟨hge, -⟩ | ⟨-, -, hr⟩
  · exact absurd hs (Nat.not_le.mpr (regIndex_toNat_lt rs))
  · exact absurd hd (Nat.not_lt.mpr hge)
  · exact hr

theorem resolve_error_of_invalid_index {d src : Nibble} (h : 8 ≤ d.toNat ∨ 8 ≤ src.toNat) :
    ∃ info, resolve d src = .error info := by
  by_cases hd : 8 ≤ d.toNat
  · exact ⟨_, resolve_of_invalid_dest hd src⟩
  · exact ⟨_, resolve_of_invalid_src (Nat.not_le.mp hd) (h.resolve_left hd)⟩

/-- Both register-register instructions raise the error that resolving their indices gives (41_move.md R78). -/
theorem exec_of_resolve_error {i : Instr} {d src : Nibble} {info : ErrorInfo}
    (hi : i = .movRegReg d src ∨ i = .subRegReg d src) (h : resolve d src = .error info) (s : State) :
    exec i s = .fault (.unknownRegister s.regs.ir info) := by
  rcases hi with rfl | rfl
  · simp [exec, execMovRegReg, h, raiseUnknownRegister]
  · simp [exec, execSubRegReg, h, raiseUnknownRegister]

/-! ### The whole step at a word of the catalog -/

theorem decode_fetchWord {s : State} {m : Mnemonic} {arg : Byte} (hw : fetchWord s = m.opcode ++ arg) :
    decode (fetchWord s) = m.instr arg := by
  rw [hw, decode_opcode_append]

/-- The IR advance and the write of an instruction's destination together: the write goes over the advance, so that a
written IR is the jump target (40_cycle.md R71, R72). -/
theorem completeStep_writeReg_regs (w : Word) (r : Reg) (v : Word) (s : State) :
    (completeStep w (writeReg r v (beginExecute s))).regs = (s.regs.set .ir (s.regs.ir + 1)).set r v := by
  rw [completeStep_regs]
  cases r <;> rfl

/-- A running step at a word of the catalog whose execution writes one register: the whole state after it. -/
theorem stepCall_of_exec_writeReg {s : State} {m : Mnemonic} {arg : Byte} {r : Reg} {v : Word} (hrun : Running s)
    (hw : fetchWord s = m.opcode ++ arg)
    (he : exec (m.instr arg) (beginExecute s) = .next (writeReg r v (beginExecute s))) :
    stepCall s = (.ok .continued,
      { s with regs := (s.regs.set .ir (s.regs.ir + 1)).set r v, irWritten := false,
               events := s.events ++ [.executed m.opcode arg m] }) := by
  rw [← decode_fetchWord hw] at he
  have hlookup : lookupOpcode (opcodeOf (fetchWord s)) = some m := by rw [hw, opcodeOf_append, lookupOpcode_opcode]
  have hevents := completeStep_events_of_some hlookup he
  rw [hw, opcodeOf_append, argumentOf_append] at hevents
  rw [stepCall_of_exec_next ((halted_eq_false_iff s).mpr hrun) he, hw, Prod.mk.injEq, State.mk.injEq]
  exact ⟨rfl, completeStep_writeReg_regs _ r v s, completeStep_mem _ _, rfl, hevents⟩

/-- The same step by what it does to each part of the state. -/
theorem stepCall_parts_of_exec_writeReg {s : State} {m : Mnemonic} {arg : Byte} {r : Reg} {v : Word}
    (hrun : Running s) (hw : fetchWord s = m.opcode ++ arg)
    (he : exec (m.instr arg) (beginExecute s) = .next (writeReg r v (beginExecute s))) :
    ∃ t, stepCall s = (.ok .continued, t) ∧ t.regs.get r = v ∧ (r ≠ .ir → t.regs.ir = s.regs.ir + 1) ∧
      (∀ q : Reg, q ≠ r → q ≠ .ir → t.regs.get q = s.regs.get q) ∧ t.mem = s.mem ∧ t.irWritten = false ∧
      t.events = s.events ++ [.executed m.opcode arg m] := by
  refine ⟨_, stepCall_of_exec_writeReg hrun hw he, get_set_same _ r v, fun hr => ?_, fun q hq hqir => ?_, rfl, rfl, rfl⟩
  · rw [set_ir_of_ne _ v hr, set_ir_same]
  · rw [get_set_of_ne _ v hq, get_set_of_ne _ _ hqir]

/-- A running step at a register-register instruction whose indices do not resolve: the error, and the state before it
(60_exceptions.md R97). -/
theorem stepCall_of_resolve_error {s : State} {d src : Nibble} {info : ErrorInfo} (hrun : Running s)
    (hi : decode (fetchWord s) = .movRegReg d src ∨ decode (fetchWord s) = .subRegReg d src)
    (h : resolve d src = .error info) :
    stepCall s = (.ok (.error { address := s.regs.ir, cause := .unknownRegister, info := info }), s) :=
  stepCall_of_exec_fault ((halted_eq_false_iff s).mpr hrun) (exec_of_resolve_error hi h (beginExecute s))

/-! ### Runs without a result -/

/-- A run gives no result when a property of the state makes every step answer Continued and is kept by it. -/
theorem runCall_none_of_invariant {P : State → Prop} (hstep : ∀ s, P s → ∃ u, stepCall s = (.ok .continued, u) ∧ P u)
    (n : Nat) {s : State} (hs : P s) : ∃ t, runCall n s = (.ok none, t) ∧ P t := by
  induction n generalizing s with
  | zero => exact ⟨s, rfl, hs⟩
  | succ n ih =>
    obtain ⟨u, hu, hPu⟩ := hstep s hs
    rw [runCall_succ_of_continued hu n]
    exact ih hPu

/-- An instruction that writes IR's own value to IR is executed for ever, with registers and memory unchanged
(70_reset_and_hazards.md R116). -/
theorem runCall_of_self_jump {s : State} (hrun : Running s)
    (he : ∀ t : State, t.regs = s.regs → exec (decode (fetchWord s)) t = .next (writeReg .ir s.regs.ir t)) (n : Nat) :
    ∃ t, runCall n s = (.ok none, t) ∧ t.regs = s.regs ∧ t.mem = s.mem := by
  refine runCall_none_of_invariant (P := fun t => t.regs = s.regs ∧ t.mem = s.mem) (fun t ht => ?_) n ⟨rfl, rfl⟩
  obtain ⟨hregs, hmem⟩ := ht
  have hfetch : fetchWord t = fetchWord s := by rw [fetchWord, fetchWord, ip_eq, ip_eq, hregs, hmem]
  have hexec := he (beginExecute t) hregs
  rw [← hfetch] at hexec
  refine ⟨_, stepCall_of_exec_next ((halted_eq_false_iff t).mpr (by rwa [hregs, hmem])) hexec, ?_, ?_⟩
  · rw [completeStep_writeReg_regs, hregs]; rfl
  · rw [completeStep_mem, writeReg_mem, beginExecute_mem, hmem]

end Sys2Proof.Machine

/-! ## The statements of the move family -/

namespace Sys2Proof.Machine

/-- Settles O31: each opcode base is its opcode shifted left by 8, and execution writes the register of the row. -/
theorem stepOfImmediateMoves : Obligations.StepOfImmediateMoves := by
  intro s imm hrun
  have hword (m : Mnemonic) := (word_eq_shiftLeft_or m.opcode imm).symm
  refine ⟨fun hw => ?_, fun hw => ?_, fun hw => ?_, fun hw => ?_⟩
  · exact stepCall_of_exec_writeReg (m := .movAImm) (r := .a) hrun (hw.trans (hword .movAImm)) rfl
  · exact stepCall_of_exec_writeReg (m := .movBImm) (r := .b) hrun (hw.trans (hword .movBImm)) rfl
  · exact stepCall_of_exec_writeReg (m := .movCImm) (r := .c) hrun (hw.trans (hword .movCImm)) rfl
  · exact stepCall_of_exec_writeReg (m := .movDImm) (r := .d) hrun (hw.trans (hword .movDImm)) rfl

/-- Settles O32: the copy and the jump by the write of the destination over the IR advance, the error by indices that
do not resolve, and the loop since `MOV IR,IR` jumps to its own address. -/
theorem stepOfMoveRegister : Obligations.StepOfMoveRegister := by
  intro s d src hrun hword
  have hbase : Mnemonic.movRegReg.opcode.setWidth 16 <<< 8 = 0x0600#16 := rfl
  have hw : fetchWord s = Mnemonic.movRegReg.opcode ++ (d ++ src) := by
    rw [word_eq_nibbles, hbase]
    exact hword
  have hi : decode (fetchWord s) = .movRegReg d src := (decode_fetchWord hw).trans (Mnemonic.instr_movRegReg d src)
  refine ⟨?_, fun hinvalid => ?_, ?_⟩
  · rintro rd rs rfl rfl
    have he : exec (Mnemonic.movRegReg.instr (regIndex rd ++ regIndex rs)) (beginExecute s) =
        .next (writeReg rd (s.regs.get rs) (beginExecute s)) := by
      rw [Mnemonic.instr_movRegReg, exec_movRegReg_regIndex, beginExecute_regs]
    obtain ⟨t, ht, hval, hadvance, hrest⟩ := stepCall_parts_of_exec_writeReg hrun hw he
    refine ⟨t, ht, hval, ?_, hrest⟩
    by_cases hrd : rd = .ir
    · subst hrd
      rw [if_pos rfl, ← hval, get_ir]
    · rw [if_neg hrd, hadvance hrd]
  · obtain ⟨info, hr⟩ := resolve_error_of_invalid_index hinvalid
    exact ⟨info, stepCall_of_resolve_error hrun (.inl hi) hr⟩
  · rintro rfl rfl n
    have hself : ∀ t : State, t.regs = s.regs → exec (decode (fetchWord s)) t = .next (writeReg .ir s.regs.ir t) := by
      intro t hregs
      rw [hi, ← hregs]
      exact exec_movRegReg_regIndex .ir .ir t
    obtain ⟨t, ht, -, -⟩ := runCall_of_self_jump hrun hself n
    rw [ht]

/-- Settles O27. -/
theorem invalidIndexRaisesError : Obligations.InvalidIndexRaisesError := by
  refine fun d src s => ⟨fun hd => ?_, fun hd hs => ?_⟩
  · have hr := resolve_of_invalid_dest hd src
    exact ⟨exec_of_resolve_error (.inl rfl) hr s, exec_of_resolve_error (.inr rfl) hr s⟩
  · have hr := resolve_of_invalid_src hd hs
    exact ⟨exec_of_resolve_error (.inl rfl) hr s, exec_of_resolve_error (.inr rfl) hr s⟩

end Sys2Proof.Machine

/-! ## Proofs of the subtract family (42_subtract.md): the rules that its statements share -/

namespace Sys2Proof

@[simp] theorem Mnemonic.instr_subRegReg (d s : Nibble) : Mnemonic.subRegReg.instr (d ++ s) = .subRegReg d s := by
  simp [Mnemonic.instr]

end Sys2Proof

namespace Sys2Proof.Machine

@[simp] theorem sub16_zero (a : Word) : sub16 a 0 = a :=
  BitVec.sub_zero a

/-- SUB_A_IMM subtracts the immediate as an unsigned number (42_subtract.md R86). -/
theorem sub16_zext16_toNat_emod (a : Word) (imm : Byte) :
    ((sub16 a (zext16 imm)).toNat : Int) = ((a.toNat : Int) - (imm.toNat : Int)) % 65536 := by
  rw [sub16_toNat_emod, zext16, BitVec.toNat_setWidth_of_le (by decide)]

/-- `SUB IR,rs` with `x[rs] = 0` jumps to its own address (70_reset_and_hazards.md R116). -/
theorem exec_subRegReg_ir_of_zero {rs : Reg} {s : State} (hz : s.regs.get rs = 0) :
    exec (.subRegReg (regIndex .ir) (regIndex rs)) s = .next (writeReg .ir s.regs.ir s) := by
  rw [exec_subRegReg_regIndex, hz, sub16_zero, get_ir]

end Sys2Proof.Machine

/-! ## The statements of the subtract family -/

namespace Sys2Proof.Machine

/-- Settles O21. -/
theorem subtractionWraps : Obligations.SubtractionWraps :=
  fun a b => ⟨fun hle => BitVec.toNat_sub_of_le (BitVec.le_def.mpr hle),
    fun hlt => BitVec.toNat_sub_of_lt (BitVec.lt_def.mpr hlt), sub16_toNat_emod a b⟩

/-- Settles O24: the signal stays, since A is not IR. -/
theorem subtractImmediateCompletes : Obligations.SubtractImmediateCompletes := by
  intro imm s
  refine ⟨_, rfl, sub16_zext16_toNat_emod s.regs.a imm, writeReg_onlyRegisterMayDiffer .a _ s, ?_⟩
  exact Bool.or_false s.irWritten

/-- Settles O33: the opcode base is the opcode shifted left by 8, and execution writes A alone. -/
theorem stepOfSubtractImmediate : Obligations.StepOfSubtractImmediate := by
  intro s imm hrun hword
  have hw : fetchWord s = Mnemonic.subAImm.opcode ++ imm :=
    hword.trans (word_eq_shiftLeft_or Mnemonic.subAImm.opcode imm).symm
  exact ⟨sub16 s.regs.a (zext16 imm), sub16_zext16_toNat_emod s.regs.a imm,
    stepCall_of_exec_writeReg (r := .a) hrun hw rfl⟩

/-- Settles O34: the difference and the jump by the write of the destination over the IR advance, the error by indices
that do not resolve, and the loop since subtracting 0 from IR jumps to the instruction's own address. -/
theorem stepOfSubtractRegister : Obligations.StepOfSubtractRegister := by
  intro s d src hrun hword
  have hw : fetchWord s = Mnemonic.subRegReg.opcode ++ (d ++ src) :=
    hword.trans (word_eq_nibbles Mnemonic.subRegReg.opcode d src).symm
  have hi : decode (fetchWord s) = .subRegReg d src := (decode_fetchWord hw).trans (Mnemonic.instr_subRegReg d src)
  refine ⟨?_, fun hinvalid => ?_, ?_⟩
  · rintro rd rs rfl rfl
    have he : exec (Mnemonic.subRegReg.instr (regIndex rd ++ regIndex rs)) (beginExecute s) =
        .next (writeReg rd (sub16 (s.regs.get rd) (s.regs.get rs)) (beginExecute s)) := by
      rw [Mnemonic.instr_subRegReg, exec_subRegReg_regIndex, beginExecute_regs]
    obtain ⟨t, ht, hval, hframe⟩ := stepCall_parts_of_exec_writeReg hrun hw he
    refine ⟨t, ht, ?_, hframe⟩
    rw [hval, sub16_toNat_emod]
  · obtain ⟨info, hr⟩ := resolve_error_of_invalid_index hinvalid
    exact ⟨info, stepCall_of_resolve_error hrun (.inr hi) hr⟩
  · rintro rs rfl rfl hz n
    have hself : ∀ t : State, t.regs = s.regs → exec (decode (fetchWord s)) t = .next (writeReg .ir s.regs.ir t) := by
      intro t hregs
      rw [← hregs] at hz ⊢
      rw [hi]
      exact exec_subRegReg_ir_of_zero hz
    obtain ⟨t, ht, -, -⟩ := runCall_of_self_jump hrun hself n
    rw [ht]

end Sys2Proof.Machine

/-! ## Proofs of the exceptions family (60_exceptions.md): the rules that its statements share -/

namespace Sys2Proof

/-- The only instructions that fail to name their registers are the register-register ones (30_encoding.md R60). -/
theorem invalid_index_of_namesRegisters_eq_false {i : Instr} (h : i.namesRegisters = false) :
    ∃ d src : Nibble, (i = .movRegReg d src ∨ i = .subRegReg d src) ∧ (8 ≤ d.toNat ∨ 8 ≤ src.toNat) := by
  cases i with
  | movAImm imm | movBImm imm | movCImm imm | movDImm imm | subAImm imm | unimplemented op arg => cases h
  | movRegReg d src => exact ⟨d, src, .inl rfl, by simpa [Instr.namesRegisters, imp_iff_not_or] using h⟩
  | subRegReg d src => exact ⟨d, src, .inr rfl, by simpa [Instr.namesRegisters, imp_iff_not_or] using h⟩

end Sys2Proof

namespace Sys2Proof.Machine

/-! ### The error of a step -/

/-- The index that an error names is one that names no register (60_exceptions.md R94). -/
theorem invalid_info_of_resolve_error {d src : Nibble} {info : ErrorInfo} (h : resolve d src = .error info) :
    8 ≤ info.index.toNat := by
  rcases resolve_cases d src with ⟨rd, rs, -, -, hr⟩ | ⟨hd, hr⟩ | ⟨-, hs, hr⟩ <;> cases hr.symm.trans h
  · exact hd
  · exact hs

/-- Everything a step that errs can be: a running core at a register-register instruction whose indices do not resolve,
with IR as the error's address (60_exceptions.md R94, R96). -/
theorem step_fault_cases {s : State} {f : Fault} (h : step s = .fault f) :
    halted s = false ∧ ∃ d src info,
      (decode (fetchWord s) = .movRegReg d src ∨ decode (fetchWord s) = .subRegReg d src) ∧
      resolve d src = .error info ∧ f = .unknownRegister s.regs.ir info := by
  rcases step_cases s with
    ⟨-, hs⟩ | ⟨-, _, _, -, hs⟩ | ⟨-, _, _, -, hs⟩ | ⟨hrun, d, src, info, hi, hr, hs⟩ <;> cases hs.symm.trans h
  exact ⟨hrun, d, src, info, hi, hr, rfl⟩

theorem step_ne_refused (s : State) (r : Refusal) : step s ≠ .refused r := by
  intro h
  rcases step_cases s with
    ⟨-, hs⟩ | ⟨-, _, _, -, hs⟩ | ⟨-, _, _, -, hs⟩ | ⟨-, _, _, _, -, -, hs⟩ <;> cases hs.symm.trans h

/-- Exactly the running cores at a word that does not name its registers err (60_exceptions.md R96). -/
theorem step_fault_iff (s : State) :
    (∃ f, step s = .fault f) ↔ Running s ∧ (decode (fetchWord s)).namesRegisters = false := by
  constructor
  · rintro ⟨f, hf⟩
    obtain ⟨hrun, d, src, info, hi, hr, -⟩ := step_fault_cases hf
    exact ⟨(halted_eq_false_iff s).mp hrun, namesRegisters_eq_false_of_resolve_error hi hr⟩
  · rintro ⟨hrun, hnames⟩
    obtain ⟨d, src, hi, hinvalid⟩ := invalid_index_of_namesRegisters_eq_false hnames
    obtain ⟨info, hr⟩ := resolve_error_of_invalid_index hinvalid
    exact ⟨_, step_of_exec_fault ((halted_eq_false_iff s).mpr hrun) (exec_of_resolve_error hi hr (beginExecute s))⟩

/-! ### The error repeats until the host acts -/

/-- `step()` reports the error's record and leaves the state before the step (60_exceptions.md R97). -/
theorem stepCall_of_step_fault {s : State} {f : Fault} (h : step s = .fault f) :
    stepCall s = (.ok (.error f.record), s) := by
  simp only [stepCall, h]

/-- A transaction that leaves a state as it is leaves it so however often it is repeated. -/
theorem session_replicate_of_fixed {x : Transaction} {s : State} (h : (transact x s).2 = s) (n : Nat) :
    session (List.replicate n x) s = s := by
  induction n with
  | zero => rfl
  | succ n ih =>
    rw [List.replicate_succ, session, h]
    exact ih

end Sys2Proof.Machine

/-! ## The statements of the exceptions family -/

namespace Sys2Proof.Machine

/-- Settles O36: the erring step leaves its own state, which is a fixed point of `step()`. -/
theorem errorIsPreciseAndRepeats : Obligations.ErrorIsPreciseAndRepeats := by
  intro s f hf
  have hcall := stepCall_of_step_fault hf
  have hfixed : (transact .step s).2 = s := by rw [transact_step_state, hcall]
  obtain ⟨-, d, src, info, -, -, rfl⟩ := step_fault_cases hf
  exact ⟨hcall, rfl, rfl, runCall_succ_of_error hcall, session_replicate_of_fixed hfixed⟩

/-- Settles O37. -/
theorem stepFaultsExactlyOnInvalidIndex : Obligations.StepFaultsExactlyOnInvalidIndex := by
  refine fun s => ⟨step_ne_refused s, step_fault_iff s, fun f hf => ?_⟩
  obtain ⟨-, d, src, info, -, hr, rfl⟩ := step_fault_cases hf
  exact invalid_info_of_resolve_error hr

/-- Settles O50. -/
theorem codesOfCausesAndOutcomes : Obligations.CodesOfCausesAndOutcomes :=
  ⟨rfl, rfl, rfl, rfl, fun _ => rfl⟩

end Sys2Proof.Machine

/-! ## Proofs of the reset and hazards family (70_reset_and_hazards.md): the rules that its statements share -/

namespace Sys2Proof.Machine

/-- The bits of a word, written out in 16 bits, are that one word again. -/
@[simp] theorem wordsOfBits_toNat (w : Word) : wordsOfBits 16 w.toNat = [w] := by
  rw [wordsOfBits, Nat.mod_eq_of_lt w.isLt, BitVec.ofNat_toNat, BitVec.setWidth_eq]

/-- A larger capacity moves no cell. -/
@[simp] theorem growTo_cellAt (m : Memory) (n i : Nat) : (m.growTo n).cellAt i = m.cellAt i := rfl

/-- Placing one word changes the memory alone: the capacity reaches past IR, and the cell at IR holds the word
(70_reset_and_hazards.md R111). -/
theorem withFetchWord_eq (s : State) (w : Word) :
    s.withFetchWord 16 w.toNat =
      s.withMem ((s.mem.growTo (s.regs.ir.toNat + 1)).withCell s.regs.ir.toNat w) := by
  rw [State.withFetchWord, wordsOfBits_toNat]
  rfl

/-- `MOV IR,rs` with its own address in `x[rs]` jumps to its own address (70_reset_and_hazards.md R116). -/
theorem exec_movRegReg_ir_of_own_address {rs : Reg} {s : State} (hown : s.regs.get rs = s.regs.ir) :
    exec (.movRegReg (regIndex .ir) (regIndex rs)) s = .next (writeReg .ir s.regs.ir s) := by
  rw [exec_movRegReg_regIndex, hown]

end Sys2Proof.Machine

/-! ## The statements of the reset and hazards family -/

namespace Sys2Proof.Machine

/-- Settles O18: the word is stored in a memory grown to hold the cell at IR. -/
theorem placedWordIsFetched : Obligations.PlacedWordIsFetched := by
  intro s w hwf
  have hsize := growTo_size s.mem (s.regs.ir.toNat + 1)
  have hin : s.regs.ir.toNat < (s.mem.growTo (s.regs.ir.toNat + 1)).size := by omega
  have hgrown := growTo_wf (s.regs.ir.toNat + 1) hwf
  rw [withFetchWord_eq]
  refine ⟨hin, cellAt_withCell_same _ w hgrown, hsize, fun j hj => ?_, withCell_wf w hin hgrown, rfl, rfl, rfl⟩
  rw [withMem_mem, cellAt_withCell_ne _ w hj, growTo_cellAt]

/-- Settles O47: both instructions write IR's own value to IR, so each is fetched again. -/
theorem selfJumpsNeverHalt : Obligations.SelfJumpsNeverHalt := by
  intro s rs hrun hloop
  refine runCall_of_self_jump hrun (fun t hregs => ?_)
  rw [← hregs] at hloop ⊢
  rcases hloop with ⟨hi, hown⟩ | ⟨hi, hzero⟩
  · rw [hi]
    exact exec_movRegReg_ir_of_own_address hown
  · rw [hi]
    exact exec_subRegReg_ir_of_zero hzero

end Sys2Proof.Machine
